-- ==== Sys2Proof/Word.lean ====
section
/-! DEFINITION. The word types of the block and the strings the Code Table holds. -/

namespace Sys2Proof

/-- An 8-bit unsigned value (00_scope.md R14). -/
abbrev Byte := BitVec 8

/-- A code value, zero-extended to 12 bits (30_encoding.md R81: compared as `zext_12(c)`). -/
abbrev Code := BitVec 12

/-- A host register: 32 bits (10_state.md R24, `REG_BITS` = 32). -/
abbrev Word32 := BitVec 32

/-- A finite sequence of bytes (00_scope.md R15); `ε` is the empty list. -/
abbrev Str := List Byte

end Sys2Proof
end

