-- ==== Sys2Proof/Config.lean ====
section
/-! DEFINITION. The constants the spec fixes (00_scope.md R11), the values `State.reset` gives to the
parameters it leaves open (R12), and the one free value. -/

namespace Sys2Proof.Config

/-- The Clear code (00_scope.md R11). -/
abbrev clearCode : Nat := 256

/-- The End-of-Information code (00_scope.md R11). -/
abbrev eoiCode : Nat := 257

/-- `FIRST_DYN`: the first dynamically appended index, `NEXT_CODE` after a reset (00_scope.md R11). -/
abbrev firstDyn : Nat := 258

/-- `W_MIN`: the code width after a reset (00_scope.md R11). -/
abbrev wMin : Nat := 9

/-- `W_MAX`: the largest code width (00_scope.md R11). -/
abbrev wMax : Nat := 12

/-- `BUMP`: the `NEXT_CODE` values at which the width grows by one (00_scope.md R11, 90_conflicts.md C2). -/
abbrev bump : List Nat := [511, 1023, 2047]

/-- `TABLE_FULL`: the largest value `NEXT_CODE` may hold (00_scope.md R11, 90_conflicts.md C3). -/
abbrev tableFull : Nat := 4094

/-- The value `State.reset` gives `L_MAX` (00_scope.md R12 leaves it open).
DESIGN CHOICE, unsafe for a statement about `State.reset` that rests on it (log 1): the smallest value for
which the length guard of 41_code_table.md R134(b) never fires (R13). -/
def lMaxAtReset : Nat := 3837

/-- The value `State.reset` gives `SPP_MAX` (00_scope.md R12 leaves it open).
DESIGN CHOICE, unsafe for a statement about `State.reset` that rests on it (log 2). -/
def sppMaxAtReset : Nat := 16

/-- The byte that the `n`-th host read of `OUT` while `BUSY` returns: "may return any value. A model answers it
with a draw" (20_memory.md R69(b)). A FREE VALUE: no body, so nothing can be proved of it (log 7; safe). -/
opaque freeOutByte : Nat → Byte

end Sys2Proof.Config
end

