-- ==== Sys2Proof/Syntax.lean ====
section
/-! DEFINITION. The instructions: the code-word classes of 30_encoding.md R84 and the host command START
(44_host_command.md R211), one constructor per row of spec/opcode_table.json. -/

namespace Sys2Proof

/-- One instruction. A code word's class depends on `NEXT_CODE` and `ENG_STATE` (30_encoding.md R84), so
`REF`, `PEND` and `INVALID` each carry the whole code. -/
inductive Instr where
  /-- `LIT b`: the literal byte `b`, code `b` (42_decoder_engine.md R154). -/
  | lit (b : Byte)
  /-- `CLEAR`: code 256 (42_decoder_engine.md R152). -/
  | clear
  /-- `EOI`: code 257 (42_decoder_engine.md R153). -/
  | eoi
  /-- `REF k`: the appended entry `k`, 258 ≤ k < `NEXT_CODE` (42_decoder_engine.md R155). -/
  | ref (k : Code)
  /-- `PEND`: the pending slot, `k` = `NEXT_CODE` in `RUNNING` (42_decoder_engine.md R156). -/
  | pend (k : Code)
  /-- `INVALID`: a code that names no legal slot (42_decoder_engine.md R157). -/
  | invalid (k : Code)
  /-- `START (DECODE)`: a host write of the word `w`, bit 0 = 1, to `CTRL` (44_host_command.md R211). -/
  | start (w : Word32)
  deriving DecidableEq, Repr

end Sys2Proof
end

