-- ==== Sys2Proof/WellFormed.lean ====
section
/-! DEFINITION. Which instruction terms some word stands for: in a given decoding context (`Instr.wfIn`,
the conditions of spec/opcode_table.json), and in any context at all (`Instr.wf`). -/

namespace Sys2Proof

/-- What the classification of a code word reads besides the code (30_encoding.md R84): `NEXT_CODE`, and
whether `ENG_STATE` is `RUNNING` (a previous string exists) rather than `CLEARED`. -/
structure Ctx where
  /-- `NEXT_CODE`. -/
  nextCode : Nat
  /-- `ENG_STATE = RUNNING`. -/
  running : Bool
  deriving DecidableEq, Repr

/-- The contexts a command can be in: 258 ≤ `NEXT_CODE` ≤ 4094 (10_state.md R28). -/
def Ctx.legal (x : Ctx) : Bool :=
  decide (Config.firstDyn ≤ x.nextCode) && decide (x.nextCode ≤ Config.tableFull)

/-- The instruction is what its word stands for in the context `x` (the conditions of 30_encoding.md R84). -/
def Instr.wfIn (x : Ctx) : Instr → Bool
  | .lit _ => true
  | .clear => true
  | .eoi => true
  | .ref k => decide (Config.firstDyn ≤ k.toNat) && decide (k.toNat < x.nextCode)
  | .pend k => decide (k.toNat = x.nextCode) && x.running
  | .invalid k => decide (x.nextCode < k.toNat) || (decide (k.toNat = x.nextCode) && !x.running)
  | .start w => w.getLsbD 0

/-- The instruction is what its word stands for in some legal context: `REF` names a slot 258..4093,
`PEND` one of 258..4094 (spec/opcode_table.json), `INVALID` a code from 258 up, START has bit 0 set. -/
def Instr.wf : Instr → Bool
  | .lit _ => true
  | .clear => true
  | .eoi => true
  | .ref k => decide (Config.firstDyn ≤ k.toNat) && decide (k.toNat < Config.tableFull)
  | .pend k => decide (Config.firstDyn ≤ k.toNat) && decide (k.toNat ≤ Config.tableFull)
  | .invalid k => decide (Config.firstDyn ≤ k.toNat)
  | .start w => w.getLsbD 0

/-- The instruction is a code word (format `CODE_W`, 30_encoding.md R80), not a host write. -/
def Instr.isCodeWord : Instr → Bool
  | .start _ => false
  | _ => true

end Sys2Proof
end

