-- ==== Sys2Proof/Decode.lean ====
section
/-! DEFINITION. Decoding: from bits to a code (30_encoding.md R81), from a code to its class (R84), from a host
write to START (44_host_command.md R211); and then the encoder and the assembler (30_encoding.md R88). -/

namespace Sys2Proof

/-- Why a word is not an instruction. -/
inductive DecodeReject where
  /-- The width asked for is not one of 9, 10, 11, 12 (30_encoding.md R80). -/
  | widthNotLegal
  /-- Fewer bits than the width are there (40_bit_reader.md R112). -/
  | tooFewBits
  /-- A host write to `CTRL` whose bit 0 is 0 is no START (44_host_command.md R211). -/
  | startBitClear
  deriving DecidableEq, Repr

/-- The code value of a run of bits, first bit most significant: `c <- 2·c + bit` (40_bit_reader.md R111,
30_encoding.md R81). -/
def codeOfBits (bits : List Bool) : Nat :=
  bits.foldl (fun c b => 2 * c + b.toNat) 0

/-- The widths a code word may have (30_encoding.md R80). -/
def legalWidth (w : Nat) : Bool :=
  decide (Config.wMin ≤ w) && decide (w ≤ Config.wMax)

/-- The class of code `c` in the context `x`, in the order of 30_encoding.md R84. -/
def classify (x : Ctx) (c : Code) : Instr :=
  if c.toNat = Config.clearCode then .clear
  else if c.toNat = Config.eoiCode then .eoi
  else if c.toNat = x.nextCode then (if x.running then .pend c else .invalid c)
  else if c.toNat ≤ 255 then .lit (c.setWidth 8)
  else if c.toNat < x.nextCode then .ref c
  else .invalid c

/-- The bits of a byte in stream order: bit 7 first (20_memory.md R62). -/
def byteBits (b : Byte) : List Bool :=
  [b.getLsbD 7, b.getLsbD 6, b.getLsbD 5, b.getLsbD 4, b.getLsbD 3, b.getLsbD 2, b.getLsbD 1, b.getLsbD 0]

/-- The bits of a byte sequence in stream order (20_memory.md R62). -/
def streamBits (bytes : List Byte) : List Bool :=
  bytes.flatMap byteBits

/-- Decodes the code word of width `w` at the head of a run of bits, in the context `x`, and gives the bits that
follow it (30_encoding.md R80: code words follow one another with no gaps). -/
def decodeBits (x : Ctx) (w : Nat) (bits : List Bool) : Except DecodeReject (Instr × List Bool) :=
  if legalWidth w then
    if w ≤ bits.length then
      .ok (classify x (BitVec.ofNat 12 (codeOfBits (bits.take w))), bits.drop w)
    else .error .tooFewBits
  else .error .widthNotLegal

/-- Decodes the code word of width `w` at bit 0 of a byte sequence, in the context `x`. -/
def decodeBytes (x : Ctx) (w : Nat) (bytes : List Byte) : Except DecodeReject (Instr × List Bool) :=
  decodeBits x w (streamBits bytes)

/-- Decodes a host write of the word `v` to `CTRL` (44_host_command.md R211: bit 0 = 1 is START). -/
def decodeCtrlWrite (v : Word32) : Except DecodeReject Instr :=
  if v.getLsbD 0 then .ok (.start v) else .error .startBitClear

/-- The code value an instruction's code word holds (30_encoding.md R84); START is no code word and has none. -/
def encodeCode : Instr → Option Code
  | .lit b => some (b.setWidth 12)
  | .clear => some (BitVec.ofNat 12 Config.clearCode)
  | .eoi => some (BitVec.ofNat 12 Config.eoiCode)
  | .ref k => some k
  | .pend k => some k
  | .invalid k => some k
  | .start _ => none

/-- The `w` bits of a code, most significant first (30_encoding.md R81). -/
def codeBits : Nat → Nat → List Bool
  | 0, _ => []
  | w + 1, c => c.testBit w :: codeBits w c

/-- The encoder: the bits of an instruction's code word at width `w`; none where `w` is no legal width, the
code does not fit in `w` bits, or the instruction is a host write (30_encoding.md R80). -/
def encode (w : Nat) (i : Instr) : Option (List Bool) :=
  match encodeCode i with
  | none => none
  | some c => if legalWidth w && decide (c.toNat < 2 ^ w) then some (codeBits w c.toNat) else none

/-- The encoder of the host command: the word written to `CTRL` (44_host_command.md R211). -/
def encodeCtrlWrite : Instr → Option Word32
  | .start w => if w.getLsbD 0 then some w else none
  | _ => none

/-- The byte whose bits, bit 7 first, are the first eight of a run of bits, missing bits 0. -/
def packByte (bits : List Bool) : Byte :=
  BitVec.ofNat 8 (codeOfBits ((bits ++ List.replicate 8 false).take 8))

/-- Packs a run of bits into `n` bytes, first bit most significant, padded with 0 bits (30_encoding.md R88). -/
def packInto : Nat → List Bool → List Byte
  | 0, _ => []
  | n + 1, bits => packByte bits :: packInto n (bits.drop 8)

/-- Packs a run of bits into as many bytes as it needs; "The final partial byte is padded with 0 bits"
(30_encoding.md R88). -/
def packBits (bits : List Bool) : List Byte :=
  packInto ((bits.length + 7) / 8) bits

/-- A statement of the assembler (30_encoding.md R88). -/
inductive Stmt where
  /-- `CLEAR`: code 256. -/
  | clear
  /-- `EOI`: code 257. -/
  | eoi
  /-- `LIT b`: code `b`. -/
  | lit (b : Byte)
  /-- `REF k`: code `k`. R88 gives the statement for 258 ≤ `k`; below that see `AsmState.codeOf` (log 28). -/
  | ref (k : Code)
  /-- `PEND`: code `NEXT_CODE`, supplied by the assembler. -/
  | pend
  /-- `CODE n`: any value `n` of 12 bits, also one the decoder will reject; a larger `n`, which no width holds, is no
  statement here (log 25). -/
  | code (n : Code)
  deriving DecidableEq, Repr

/-- What the assembler tracks to know the width of the next code word: the decoding context and `CODE_WIDTH`
(30_encoding.md R88: "taking `CODE_WIDTH` before each code"). -/
structure AsmState where
  /-- `NEXT_CODE` and whether a previous string exists. -/
  ctx : Ctx
  /-- `CODE_WIDTH`. -/
  width : Nat
  deriving DecidableEq, Repr

/-- The assembler's state at the start of a command (10_state.md R38). -/
def AsmState.init : AsmState := ⟨⟨Config.firstDyn, false⟩, Config.wMin⟩

/-- The width after a step whose append made `NEXT_CODE` equal to `n` (42_decoder_engine.md R160). -/
def bumpWidth (n w : Nat) : Nat :=
  if n ∈ Config.bump then min (w + 1) Config.wMax else w

/-- The code a statement spells in the assembler's state (30_encoding.md R88). DESIGN CHOICE (log 28): R88 gives `REF k` for
258 ≤ `k` only and does not say what a `k` below 258 assembles to; it is spelled as the code `k`, as `CODE k` would be, so
that `REF 65` is the code word of `LIT 0x41` and `REF 256` that of `CLEAR`. -/
def AsmState.codeOf (a : AsmState) : Stmt → Code
  | .clear => BitVec.ofNat 12 Config.clearCode
  | .eoi => BitVec.ofNat 12 Config.eoiCode
  | .lit b => b.setWidth 12
  | .ref k => k
  | .pend => BitVec.ofNat 12 a.ctx.nextCode
  | .code n => n

/-- The assembler's state after a string code (42_decoder_engine.md R158): it appends when a previous string
exists and the table is not full, and bumps the width (R160). -/
def AsmState.afterString (a : AsmState) : AsmState :=
  if a.ctx.running then
    if a.ctx.nextCode < Config.tableFull then
      ⟨⟨a.ctx.nextCode + 1, true⟩, bumpWidth (a.ctx.nextCode + 1) a.width⟩
    else a
  else ⟨⟨a.ctx.nextCode, true⟩, a.width⟩

/-- The assembler's state after the code word of an instruction: a `CLEAR` resets it (42_decoder_engine.md R152),
as START does; `EOI` and `INVALID` end the command and change nothing. DESIGN CHOICE (log 27): no engine step reads a code
word after the command has ended, so R82 and R88 give it no width; the assembler goes on as if the command still ran. -/
def AsmState.after (a : AsmState) : Instr → AsmState
  | .clear => AsmState.init
  | .eoi => a
  | .invalid _ => a
  | .start _ => AsmState.init
  | .lit _ => a.afterString
  | .ref _ => a.afterString
  | .pend _ => a.afterString

/-- The bits of a program, each code word at the width the decoder will read it with (30_encoding.md R88). DESIGN CHOICE
(log 25): R88 is silent on a code that does not fit in that width; its low bits are written, and the width of the next
code follows the code as spelled. -/
def assembleBits : AsmState → List Stmt → List Bool
  | _, [] => []
  | a, t :: rest =>
    codeBits a.width (a.codeOf t).toNat ++ assembleBits (a.after (classify a.ctx (a.codeOf t))) rest

/-- The assembler: a program as bytes, the last byte padded with 0 bits (30_encoding.md R88). -/
def assemble (program : List Stmt) : List Byte :=
  packBits (assembleBits AsmState.init program)

/-- The context in which `decodeTableWord` reads a code word: `RUNNING` with `NEXT_CODE` = 259, what START and
the two code words `LIT 0; LIT 0` leave. DESIGN CHOICE (log 15): the table's rows REF, PEND and INVALID have no
meaning without a context, and in this one every row has a word. -/
def tableCtx : Ctx := ⟨259, true⟩

/-- Whether a row of the opcode table with `nbits` bits is a code word (9 to 12 bits, in whole bytes 16) rather
than the 32-bit host write START, whose one fixed bit is bit 0 (log 15). -/
def isCodeRow (nbits : Nat) : Bool := decide (9 ≤ nbits) && decide (nbits ≤ 16)

/-- The instruction the decoder reads from a word of the opcode table, its bits numbered as the table numbers
them. A code word is laid out most significant bit first at its widest, 12 bits; the class does not depend on the
width (30_encoding.md R81). -/
def decodeTableWord (nbits w : Nat) : Option Instr :=
  if isCodeRow nbits then
    if w < 4096 then
      match decodeBytes tableCtx 12 (packBits (codeBits 12 w)) with
      | .ok r => some r.1
      | .error _ => none
    else none
  else
    if w < 2 ^ 32 then
      match decodeCtrlWrite (BitVec.ofNat 32 w) with
      | .ok i => some i
      | .error _ => none
    else none

end Sys2Proof
end

