-- ==== Sys2Proof/Machine/State.lean ====
section
/-! DEFINITION. The state of the block and of its host (10_state.md), the reasons a step can stop, and the state
right after power-on. -/

namespace Sys2Proof.Machine

/-- `ENG_STATE` (10_state.md R21). -/
inductive EngState where
  /-- No command has started since power-on. -/
  | idle
  /-- Command running, table just reset, no previous string. -/
  | cleared
  /-- Command running, a previous string exists. -/
  | running
  /-- Command ended at an EOI code. -/
  | done
  /-- Command ended with an error; `ERR_KIND` names it. -/
  | failed
  deriving DecidableEq, Repr

/-- `ERR_KIND` (10_state.md R22). -/
inductive ErrKind where
  /-- `NONE`. -/
  | noError
  /-- `UnexpectedEndOfInput` (60_exceptions.md R231). -/
  | unexpectedEndOfInput
  /-- `InvalidCode` (60_exceptions.md R232). -/
  | invalidCode
  /-- `TableOverflow` (60_exceptions.md R233). -/
  | tableOverflow
  /-- `OutputOverflow` (60_exceptions.md R234). -/
  | outputOverflow
  deriving DecidableEq, Repr

/-- One move of the host agent (00_scope.md R10, 44_host_command.md R216). -/
inductive HostMove where
  /-- Write the word `v` to the register at offset `off` (10_state.md R24). -/
  | write (off : Word32) (v : Word32)
  /-- Read the register at offset `off` (10_state.md R24). -/
  | read (off : Word32)
  /-- Put the byte `b` at `IN[a]` ("provide input", R216). -/
  | loadIn (a : Word32) (b : Byte)
  /-- Put the byte `b` at `OUT[a]` ("provide output … with any contents", R216). -/
  | loadOut (a : Word32) (b : Byte)
  /-- Read `OUT[a]` ("collect", R216). -/
  | readOut (a : Word32)
  /-- Declare that `IN` and `OUT` overlap, or that they do not (20_memory.md R61). -/
  | declareOverlap (b : Bool)
  /-- Do nothing: the engine has its turn. -/
  | wait
  deriving DecidableEq, Repr

/-- Why the machine stops with a fault. -/
inductive Fault where
  /-- Raised by `step` in `FAILED` when the host has no move left: the command ended with the error `e`, and
  "`FAILED` is a fault" (60_exceptions.md R243). Safe: the state stays frozen (R240 (4)). -/
  | commandFailed (e : ErrKind)
  /-- Raised by a host read of `OUT` at an offset beyond every byte of `OUT` the host has given: no such address
  (20_memory.md R60: 0 ≤ a < `OUT_CAP`). Lowering `OUT_CAP` takes none away. Safe: the model stops (log 17). -/
  | outsideOut
  deriving DecidableEq, Repr

/-- Why a step has no meaning. -/
inductive Refusal where
  /-- Raised by `exec`'s arm of an instruction that has no meaning yet. Safe. -/
  | notModelled (mnemonic : String)
  /-- Raised by every `step` once the refusal mark is set: a command was started against the preconditions of
  44_host_command.md R212, and a refused command has no step. Safe (log 9). -/
  | commandRefused
  /-- Raised by the meaning of a code word in `IDLE`, `DONE` or `FAILED`, where no engine step is enabled
  (42_decoder_engine.md R150). `step` never asks for it. Safe (log 12). -/
  | engineNotEnabled
  /-- Raised by the meaning of `REF`, `PEND` or `INVALID` with a code that is of another class in the state at hand
  (30_encoding.md R84). `step` never asks for it. Safe (log 12). -/
  | notThisClass
  /-- Raised by a string code whose resolved string is empty: `firstByte` is "defined only for `len(s) ≥ 1`"
  (00_scope.md R15). No state that meets `Inv` reaches it. Safe (log 13). -/
  | emptyString
  /-- Raised by `step` when `CODE_WIDTH` is not 9..12 (10_state.md R29). No state that meets `Inv` reaches it.
  Safe (log 14). -/
  | widthNotLegal
  /-- Raised by a host write to `IN` or `OUT` while `BUSY`: "a model gives the host no such move"
  (44_host_command.md R214). Safe (log 8). -/
  | hostMemoryWriteWhileBusy
  deriving DecidableEq, Repr

/-- The block's state between steps (10_state.md R20), the host's memories and declarations (20_memory.md R60,
R61), the refusal mark (44_host_command.md R212), the two parameters the spec leaves open (00_scope.md R12), and
the model's own fields for the host agent: how much of `OUT` it has given, its pending moves, the word its last read
returned, and the count of draws. -/
structure State where
  /-- `L_MAX`, a parameter no step changes (00_scope.md R12, log 1). -/
  lMax : Nat
  /-- `SPP_MAX`, a parameter no step changes (00_scope.md R12, log 2). -/
  sppMax : Nat
  /-- `ENG_STATE` (10_state.md R21). -/
  engState : EngState
  /-- `ERR_KIND` (10_state.md R22). -/
  errKind : ErrKind
  /-- `CTRL.USE_PRED` (10_state.md R24). -/
  usePred : Bool
  /-- `IN_LEN` (10_state.md R24). -/
  inLen : Word32
  /-- `OUT_CAP` (10_state.md R24). -/
  outCap : Word32
  /-- `ROW_STRIDE` (10_state.md R24). -/
  rowStride : Word32
  /-- `SPP` (10_state.md R24). -/
  spp : Word32
  /-- `BIT_POS`, the bit cursor and program counter (10_state.md R25). -/
  bitPos : BitVec 35
  /-- `NEXT_CODE` (10_state.md R28). -/
  nextCode : BitVec 12
  /-- `CODE_WIDTH` (10_state.md R29). -/
  codeWidth : BitVec 4
  /-- `PREV`, the previous string (10_state.md R30). -/
  prev : Str
  /-- `ENTRY[0..4093]` with their lengths, as a canonical sparse list (10_state.md R31). -/
  entry : List (Nat × Str)
  /-- `OUT_POS`, which `BYTES_WRITTEN` reads (10_state.md R32). -/
  outPos : Word32
  /-- `LANE[0..SPP_MAX-1]` (10_state.md R33). -/
  lane : List Byte
  /-- `IN`, the host's input memory, as a canonical sparse list (20_memory.md R60). -/
  inMem : List Host.Cell
  /-- `OUT`, the host's output memory, as a canonical sparse list (20_memory.md R60). -/
  outMem : List Host.Cell
  /-- How many bytes of `OUT` the host has given so far: past every offset it loaded and every value it wrote to
  `OUT_CAP` (44_host_command.md R216; log 17). -/
  outGiven : Nat
  /-- The host has declared that `IN` and `OUT` overlap (20_memory.md R61, log 18). -/
  overlap : Bool
  /-- The refusal mark (44_host_command.md R212, log 9). -/
  refusedMark : Bool
  /-- The host's pending moves, the next one first (log 5). -/
  script : List HostMove
  /-- The word the host's last read returned (log 6). -/
  hostData : Word32
  /-- How many free values have been drawn (log 7). -/
  draws : Nat
  deriving DecidableEq, Repr

/-- The state at power-on of a block with the parameters `L_MAX` and `SPP_MAX` (10_state.md R37, 70_reset R260).
`BIT_POS`, `NEXT_CODE`, `CODE_WIDTH`, `PREV`, `ENTRY` and `LANE` are unspecified there: their values are the model's
(DESIGN CHOICE, log 4), as are the empty memories (log 3) and the host agent's fields (logs 5, 6, 7, 17, 18). -/
def State.powerOn (lMax sppMax : Nat) : State where
  lMax := lMax
  sppMax := sppMax
  engState := .idle
  errKind := .noError
  usePred := false
  inLen := 0#32
  outCap := 0#32
  rowStride := 0#32
  spp := 0#32
  bitPos := 0#35
  nextCode := 258#12
  codeWidth := 9#4
  prev := []
  entry := []
  outPos := 0#32
  lane := List.replicate sppMax 0#8
  inMem := []
  outMem := []
  outGiven := 0
  overlap := false
  refusedMark := false
  script := []
  hostData := 0#32
  draws := 0

/-- The machine right after reset: `State.powerOn` at the parameter values of `Config` (logs 1 and 2). -/
def State.reset : State := State.powerOn Config.lMaxAtReset Config.sppMaxAtReset

end Sys2Proof.Machine
end

