-- ==== Sys2Proof/Machine/Flags.lean ====
section
/-! DEFINITION. The block has no condition codes; "Its only flag-like state is `ENG_STATE`" (10_state.md R35). What
is computed from it: `BUSY`, "a previous string exists", the classification context and `STATUS`. -/

namespace Sys2Proof.Machine

/-- "A previous string exists": `ENG_STATE = RUNNING` (10_state.md R35, 42_decoder_engine.md R159). -/
def State.hasPrev (s : State) : Bool := decide (s.engState = .running)

/-- `STATUS = BUSY`: `ENG_STATE ∈ {CLEARED, RUNNING}`, where an engine step is enabled (10_state.md R23,
42_decoder_engine.md R150). -/
def State.busy (s : State) : Bool := decide (s.engState = .cleared) || decide (s.engState = .running)

/-- What the classification of a code reads of the state (30_encoding.md R84). -/
def State.ctx (s : State) : Ctx := ⟨s.nextCode.toNat, s.hasPrev⟩

/-- The `STATUS` code of an error kind (10_state.md R23). `NONE` has none: `FAILED` never holds it (R22), and the 0
given here is never read in a state that meets `Inv` (log 23). -/
def ErrKind.code : ErrKind → Word32
  | .noError => 0#32
  | .unexpectedEndOfInput => 3#32
  | .invalidCode => 4#32
  | .tableOverflow => 5#32
  | .outputOverflow => 6#32

/-- `STATUS`, computed from `ENG_STATE` and `ERR_KIND` (10_state.md R23). -/
def State.status (s : State) : Word32 :=
  match s.engState with
  | .idle => 0#32
  | .cleared => 1#32
  | .running => 1#32
  | .done => 2#32
  | .failed => s.errKind.code

end Sys2Proof.Machine
end

