-- ==== Sys2Proof/Machine/Sparse.lean ====
section
/-! DEFINITION. Storage as a list of (key, value) pairs in one canonical form: keys strictly rising, and no entry
equal to what an unlisted key reads as, so that equal storages are equal lists. -/

namespace Sys2Proof.Machine

/-- The value at key `k`: the listed one, else what an unlisted key reads as. -/
def Sparse.look {α : Type} (d : Nat → α) : List (Nat × α) → Nat → α
  | [], k => d k
  | (j, v) :: t, k => if k = j then v else Sparse.look d t k

/-- Writes `v` at key `k`, keeping the canonical form: writing what an unlisted key reads as removes the entry. -/
def Sparse.put {α : Type} [DecidableEq α] (d : Nat → α) : List (Nat × α) → Nat → α → List (Nat × α)
  | [], k, v => if v = d k then [] else [(k, v)]
  | (j, u) :: t, k, v =>
    if k < j then (if v = d k then (j, u) :: t else (k, v) :: (j, u) :: t)
    else if k = j then (if v = d k then t else (k, v) :: t)
    else (j, u) :: Sparse.put d t k v

/-- The canonical form from key `lo` up. -/
def Sparse.wfFrom {α : Type} [DecidableEq α] (d : Nat → α) : Nat → List (Nat × α) → Bool
  | _, [] => true
  | lo, (k, v) :: t => decide (lo ≤ k) && decide (v ≠ d k) && Sparse.wfFrom d (k + 1) t

/-- The canonical form. -/
def Sparse.wf {α : Type} [DecidableEq α] (d : Nat → α) (m : List (Nat × α)) : Bool :=
  Sparse.wfFrom d 0 m

/-- What a byte of `IN` or `OUT` that nothing has written reads as. The spec gives these host memories no reset
contents (20_memory.md R60). DESIGN CHOICE: 0; unsafe (log 3). -/
def Memory.unwritten (_ : Nat) : Byte := 0#8

/-- The byte at offset `a`. -/
def Memory.read (m : List Host.Cell) (a : Nat) : Byte := Sparse.look Memory.unwritten m a

/-- Writes the byte `v` at offset `a`. -/
def Memory.write (m : List Host.Cell) (a : Nat) (v : Byte) : List Host.Cell := Sparse.put Memory.unwritten m a v

/-- The canonical form of `IN` and of `OUT`. -/
def Memory.wf (m : List Host.Cell) : Bool := Sparse.wf Memory.unwritten m

/-- What an unlisted slot of the Code Table holds: what `TBL_RESET` writes to 0..257 (41_code_table.md R130), and
for a slot from 258 up that nothing has written the empty string (log 4). -/
def Table.unwritten (k : Nat) : Str := if k ≤ 255 then [BitVec.ofNat 8 k] else []

/-- `ENTRY[k]` (10_state.md R31). -/
def Table.read (t : List (Nat × Str)) (k : Nat) : Str := Sparse.look Table.unwritten t k

/-- `ENTRY[k] <- v`. -/
def Table.write (t : List (Nat × Str)) (k : Nat) (v : Str) : List (Nat × Str) := Sparse.put Table.unwritten t k v

/-- The canonical form of the Code Table. -/
def Table.wf (t : List (Nat × Str)) : Bool := Sparse.wf Table.unwritten t

/-- `ENTRY[i] <- [i]` for 0..255, `ENTRY[256] <- ε`, `ENTRY[257] <- ε` (41_code_table.md R130): the slots below 258
lose their entries, so that they read as unlisted ones do, and those from 258 up stay. -/
def Table.resetFixed (t : List (Nat × Str)) : List (Nat × Str) := t.filter (fun e => decide (258 ≤ e.1))

end Sys2Proof.Machine
end

