-- ==== Sys2Proof/Machine/Ops.lean ====
section
/-! DEFINITION. The operations the instructions share: the two memories, the Bit Reader (40_bit_reader.md), the
Code Table (41_code_table.md), the Predictor Stage (43_predictor.md), raising an error (60_exceptions.md R240) and
the common tail of the string codes (42_decoder_engine.md R158). An operation that may raise answers
`Except ErrKind`: each makes its checks before any write, so that on an error the state it was given is the state
with every earlier write kept (R240 (2)). -/

namespace Sys2Proof.Machine

/-! ### Memories (20_memory.md) -/

/-- `IN[a]` (20_memory.md R63). -/
def State.inByte (s : State) (a : Nat) : Byte := Memory.read s.inMem a

/-- `OUT[a]`. -/
def State.outByte (s : State) (a : Nat) : Byte := Memory.read s.outMem a

/-- The host puts a byte at `IN[a]` (44_host_command.md R216). -/
def State.putIn (s : State) (a : Nat) (b : Byte) : State := { s with inMem := Memory.write s.inMem a b }

/-- The host has given at least `n` bytes of `OUT` (44_host_command.md R216; log 17). -/
def State.giveOut (s : State) (n : Nat) : State := { s with outGiven := max s.outGiven n }

/-- The host puts a byte at `OUT[a]` (44_host_command.md R216). -/
def State.putOut (s : State) (a : Nat) (b : Byte) : State :=
  { s.giveOut (a + 1) with outMem := Memory.write s.outMem a b }

/-- Bit `n` of the stream: `IN[n div 8][7 − (n mod 8)]` (20_memory.md R62). -/
def State.inBit (s : State) (n : Nat) : Bool := (s.inByte (n / 8)).getLsbD (7 - n % 8)

/-! ### Raising an error (60_exceptions.md R240) -/

/-- Failure entry: `ERR_KIND <- E` and `ENG_STATE <- FAILED`; every earlier write is kept (60_exceptions.md R240).
There is no return from it (R242): only START leaves `FAILED`. -/
def State.raise (s : State) (e : ErrKind) : State := { s with errKind := e, engState := .failed }

/-! ### Bit Reader (40_bit_reader.md) -/

/-- The `w` stream bits from `BIT_POS` on, in stream order. -/
def State.window (s : State) (w : Nat) : List Bool :=
  (List.range w).map (fun j => s.inBit (s.bitPos.toNat + j))

/-- `BIT_POS <- BIT_POS + w` (40_bit_reader.md R111). -/
def State.advance (s : State) (w : Nat) : State := { s with bitPos := BitVec.ofNat 35 (s.bitPos.toNat + w) }

/-- `READCODE(w)` (40_bit_reader.md R111, R112): the code and the state with `BIT_POS` advanced, or
`UnexpectedEndOfInput` when fewer than `w` bits remain. -/
def State.readCode (s : State) (w : Nat) : Except ErrKind (Code × State) :=
  if 8 * s.inLen.toNat - s.bitPos.toNat < w then .error .unexpectedEndOfInput
  else .ok (BitVec.ofNat 12 (codeOfBits (s.window w)), s.advance w)

/-! ### Code Table (41_code_table.md) -/

/-- `TBL_RESET` (41_code_table.md R130). -/
def State.tblReset (s : State) : State :=
  { s with entry := Table.resetFixed s.entry, nextCode := 258#12, codeWidth := 9#4 }

/-- `TBL_ENTRY(k)` (41_code_table.md R132). -/
def State.tblEntry (s : State) (k : Nat) : Str := Table.read s.entry k

/-- `ENTRY[NEXT_CODE] <- str`, `NEXT_CODE <- NEXT_CODE + 1` (41_code_table.md R135). -/
def State.storeEntry (s : State) (str : Str) : State :=
  { s with
    entry := Table.write s.entry s.nextCode.toNat str,
    nextCode := BitVec.ofNat 12 (s.nextCode.toNat + 1) }

/-- `TBL_APPEND(p, x)` (41_code_table.md R135): both checks of R134, then the store. -/
def State.tblAppend (s : State) (p : Str) (x : Byte) : Except ErrKind State :=
  if Config.tableFull ≤ s.nextCode.toNat then .error .tableOverflow
  else if s.lMax < p.length + 1 then .error .tableOverflow
  else .ok (s.storeEntry (p ++ [x]))

/-! ### Predictor Stage (43_predictor.md) -/

/-- `for l in 0 .. n−1: LANE[l] <- 0` (43_predictor.md R191, R192). -/
def zeroLanes : Nat → List Byte → List Byte
  | 0, l => l
  | _ + 1, [] => []
  | n + 1, _ :: t => 0#8 :: zeroLanes n t

/-- The reconstructed byte and the lane file after it, for the raw byte `raw` at output offset `i` with `USE_PRED`
= 1 (43_predictor.md R191, R192, R195, R196). -/
def predict (rowStride spp i : Nat) (raw : Byte) (lane : List Byte) : Byte × List Byte :=
  let col := i % rowStride
  let lanes := if col = 0 then zeroLanes spp lane else lane
  if col < spp then (raw, lanes.set col raw)
  else
    let v := raw + lanes.getD (col % spp) 0#8
    (v, lanes.set (col % spp) v)

/-- The reconstructed byte and the lane file after it for one raw byte at `OUT_POS`: the identity when the predictor
is off (43_predictor.md R191, R194). -/
def State.reconstruct (s : State) (raw : Byte) : Byte × List Byte :=
  if s.usePred then predict s.rowStride.toNat s.spp.toNat s.outPos.toNat raw s.lane else (raw, s.lane)

/-- One turn of `EMIT`'s loop: the byte is written at `OUT_POS`, which advances by 1 (43_predictor.md R191,
20_memory.md R64). -/
def State.emitByte (s : State) (raw : Byte) : State :=
  { s with
    outMem := Memory.write s.outMem s.outPos.toNat (s.reconstruct raw).1,
    outPos := BitVec.ofNat 32 (s.outPos.toNat + 1),
    lane := (s.reconstruct raw).2 }

/-- `EMIT`'s loop over the bytes of a string (43_predictor.md R191). -/
def State.emitAll (s : State) (str : Str) : State := str.foldl State.emitByte s

/-- `EMIT(s)` (43_predictor.md R191): one check before the first byte (R193), then every byte. -/
def State.emit (s : State) (str : Str) : Except ErrKind State :=
  if s.outCap.toNat < s.outPos.toNat + str.length then .error .outputOverflow else .ok (s.emitAll str)

/-! ### The common tail of the string codes (42_decoder_engine.md R158) -/

/-- Step 7: `PREV <- CUR`, `ENG_STATE <- RUNNING` (42_decoder_engine.md R158). -/
def State.remember (s : State) (cur : Str) : State := { s with prev := cur, engState := .running }

/-- Step 8 after an append: the width bump (42_decoder_engine.md R158, R160). -/
def State.widen (s : State) : State :=
  { s with codeWidth := BitVec.ofNat 4 (bumpWidth s.nextCode.toNat s.codeWidth.toNat) }

/-- `STRING_TAIL(CUR)` (42_decoder_engine.md R158): emit, append when a previous string exists, remember, widen. An
empty `CUR` has no first byte (00_scope.md R15): refused by name, and never met from a state that meets `Inv`
(log 13). -/
def State.stringTail (s : State) (cur : Str) : Host.Outcome State Fault Refusal :=
  match cur with
  | [] => .refused .emptyString
  | x :: _ =>
    match s.emit cur with
    | .error e => .next (s.raise e)
    | .ok s₁ =>
      if s.hasPrev then
        match s₁.tblAppend s₁.prev x with
        | .error e => .next (s₁.raise e)
        | .ok s₂ => .next (s₂.remember cur).widen
      else .next (s₁.remember cur)

/-- A code word has a meaning only where an engine step is enabled (42_decoder_engine.md R150); elsewhere it is
refused by name (log 12). -/
def State.whenEnabled (s : State) (o : Host.Outcome State Fault Refusal) : Host.Outcome State Fault Refusal :=
  if s.busy then o else .refused .engineNotEnabled

/-! ### Host registers (10_state.md R24) and the START values (10_state.md R38) -/

/-- A host read of the register at offset `off`; any other offset returns 0 (10_state.md R24). -/
def State.regRead (s : State) (off : Word32) : Word32 :=
  if off = 0x00#32 then (if s.usePred then 2#32 else 0#32)
  else if off = 0x04#32 then s.status
  else if off = 0x08#32 then s.inLen
  else if off = 0x0C#32 then s.outCap
  else if off = 0x10#32 then s.rowStride
  else if off = 0x14#32 then s.spp
  else if off = 0x18#32 then s.outPos
  else 0#32

/-- The `USE_PRED` part of a write of `v` to `CTRL`: bit 1 (10_state.md R24, 44_host_command.md R211). -/
def State.setUsePred (s : State) (v : Word32) : State := { s with usePred := v.getLsbD 1 }

/-- A host write of `v` to the register at offset `off` that is no START: ignored while `BUSY`, for a read-only
register and for any other offset (10_state.md R24, 44_host_command.md R214). A capacity written to `OUT_CAP` is given
(log 17). -/
def State.regWrite (s : State) (off v : Word32) : State :=
  if s.busy then s
  else if off = 0x00#32 then s.setUsePred v
  else if off = 0x08#32 then { s with inLen := v }
  else if off = 0x0C#32 then { s.giveOut v.toNat with outCap := v }
  else if off = 0x10#32 then { s with rowStride := v }
  else if off = 0x14#32 then { s with spp := v }
  else s

/-- The preconditions of START (44_host_command.md R212). -/
def State.startLegal (s : State) : Bool :=
  decide (1 ≤ s.rowStride.toNat) && decide (1 ≤ s.spp.toNat) && decide (s.spp.toNat ≤ s.sppMax) && !s.overlap

/-- The values START writes (10_state.md R38). -/
def State.startValues (s : State) : State :=
  { s.tblReset with
    engState := .cleared, errKind := .noError, prev := [], bitPos := 0#35, outPos := 0#32,
    lane := List.replicate s.sppMax 0#8 }

/-- The host's read returns the word `v`. -/
def State.receive (s : State) (v : Word32) : State := { s with hostData := v }

/-- The host's read of `OUT` while `BUSY` returns the next free value (20_memory.md R69(b), log 7). -/
def State.receiveDraw (s : State) : State :=
  { s with hostData := (Config.freeOutByte s.draws).setWidth 32, draws := s.draws + 1 }

/-- The host declares that `IN` and `OUT` overlap, or that they do not (20_memory.md R61). -/
def State.declareOverlap (s : State) (b : Bool) : State := { s with overlap := b }

/-- A refused command: the refusal mark is set (44_host_command.md R212). -/
def State.refuseCommand (s : State) : State := { s with refusedMark := true }

end Sys2Proof.Machine
end

