-- ==== Sys2Proof/Machine/Operands.lean ====
section
/-! DEFINITION. The operand forms of the code words: which string a code stands for (42_decoder_engine.md R154 to
R156), and when a code is of a class in the state at hand (30_encoding.md R84). -/

namespace Sys2Proof.Machine

/-- The string of `LIT b`: `TBL_ENTRY(b)` (42_decoder_engine.md R154). -/
def State.litString (s : State) (b : Byte) : Str := s.tblEntry b.toNat

/-- The string of `REF k`: `TBL_ENTRY(k)` (42_decoder_engine.md R155). -/
def State.refString (s : State) (k : Code) : Str := s.tblEntry k.toNat

/-- The string of `PEND`: `PREV ++ [PREV[0]]`, from `PREV` alone (42_decoder_engine.md R156, 70_reset R264). -/
def State.pendString (s : State) : Str :=
  match s.prev with
  | [] => []
  | x :: t => x :: t ++ [x]

/-- `k` is of class `REF`: 258 ≤ k < `NEXT_CODE` (30_encoding.md R84 row 5). -/
def State.isRef (s : State) (k : Code) : Bool := Instr.wfIn s.ctx (.ref k)

/-- `k` is of class `PEND`: k = `NEXT_CODE` in `RUNNING` (30_encoding.md R84 row 3). -/
def State.isPend (s : State) (k : Code) : Bool := Instr.wfIn s.ctx (.pend k)

/-- `k` is of class `INVALID`: k > `NEXT_CODE`, or k = `NEXT_CODE` with no previous string (30_encoding.md R84 rows
6 and 3′). -/
def State.isInvalid (s : State) (k : Code) : Bool := Instr.wfIn s.ctx (.invalid k)

end Sys2Proof.Machine
end

