-- ==== Sys2Proof/Machine/ControlCodes.lean ====
section
/-! DEFINITION. The meanings of the control codes CLEAR and EOI and of INVALID (42_decoder_engine.md R152, R153,
R157). Each acts on the state after `READCODE`, which has advanced `BIT_POS` (`nextAction`). -/

namespace Sys2Proof.Machine

/-- `TBL_RESET`, `PREV <- ε`, `ENG_STATE <- CLEARED` (42_decoder_engine.md R152). -/
def State.clearCommand (s : State) : State := { s.tblReset with prev := [], engState := .cleared }

/-- `CLEAR` (42_decoder_engine.md R152). -/
def execClear (s : State) : Host.Outcome State Fault Refusal :=
  s.whenEnabled (.next s.clearCommand)

/-- `EOI`: `ENG_STATE <- DONE` (42_decoder_engine.md R153). -/
def execEoi (s : State) : Host.Outcome State Fault Refusal :=
  s.whenEnabled (.next { s with engState := .done })

/-- `INVALID`: raises `InvalidCode` (42_decoder_engine.md R157). A code of another class is refused by name
(log 12). -/
def execInvalid (k : Code) (s : State) : Host.Outcome State Fault Refusal :=
  s.whenEnabled (if s.isInvalid k then .next (s.raise .invalidCode) else .refused .notThisClass)

end Sys2Proof.Machine
end

