-- ==== Sys2Proof/Machine/HostCommand.lean ====
section
/-! DEFINITION. The meaning of the host command START (44_host_command.md R211, R212, R214). -/

namespace Sys2Proof.Machine

/-- `START`: a host write of `w` to `CTRL` (44_host_command.md R211). Ignored while `BUSY` (R214). `USE_PRED` takes
bit 1; when the preconditions of R212 fail the command is refused, else the START values are written. A word whose
bit 0 is 0 is a plain `CTRL` write and "only updates `USE_PRED`" (R211). -/
def execStart (w : Word32) (s : State) : Host.Outcome State Fault Refusal :=
  if s.busy then .next s
  else if w.getLsbD 0 then
    if (s.setUsePred w).startLegal then .next (s.setUsePred w).startValues
    else .next (s.setUsePred w).refuseCommand
  else .next (s.setUsePred w)

end Sys2Proof.Machine
end

