-- ==== Sys2Proof/Machine/StringCodes.lean ====
section
/-! DEFINITION. The meanings of the string codes LIT, REF and PEND (42_decoder_engine.md R154 to R156). Each acts on
the state after `READCODE`, which has advanced `BIT_POS` (`nextAction`). -/

namespace Sys2Proof.Machine

/-- `LIT b` (42_decoder_engine.md R154). -/
def execLit (b : Byte) (s : State) : Host.Outcome State Fault Refusal :=
  s.whenEnabled (s.stringTail (s.litString b))

/-- `REF k` (42_decoder_engine.md R155). A code of another class is refused by name (log 12). -/
def execRef (k : Code) (s : State) : Host.Outcome State Fault Refusal :=
  s.whenEnabled (if s.isRef k then s.stringTail (s.refString k) else .refused .notThisClass)

/-- `PEND` (42_decoder_engine.md R156). A code of another class is refused by name (log 12). -/
def execPend (k : Code) (s : State) : Host.Outcome State Fault Refusal :=
  s.whenEnabled (if s.isPend k then s.stringTail s.pendString else .refused .notThisClass)

end Sys2Proof.Machine
end

