-- ==== Sys2Proof/Machine/Dispatch.lean ====
section
/-! DEFINITION. One arm per instruction, each a direct call of its meaning. -/

namespace Sys2Proof.Machine

def exec (i : Instr) (s : State) : Host.Outcome State Fault Refusal :=
  match i with
  | .lit b => Sys2Proof.Machine.execLit b s
  | .clear => Sys2Proof.Machine.execClear s
  | .eoi => Sys2Proof.Machine.execEoi s
  | .ref k => Sys2Proof.Machine.execRef k s
  | .pend k => Sys2Proof.Machine.execPend k s
  | .invalid k => Sys2Proof.Machine.execInvalid k s
  | .start w => Sys2Proof.Machine.execStart w s

end Sys2Proof.Machine
end

