-- ==== Sys2Proof/Machine/Fetch.lean ====
section
/-! DEFINITION. What happens next: a move of the host, a code word that the engine reads and classifies, or nothing.
Everything of a step but the run of the instruction itself; and how `withFetchWord` places an instruction. -/

namespace Sys2Proof.Machine

/-- What a step does. -/
inductive Action where
  /-- It is over: the outcome. -/
  | done (o : Host.Outcome State Fault Refusal)
  /-- It runs the instruction `i` on the state `s`. -/
  | run (i : Instr) (s : State)

/-- An engine step up to the run of the instruction (42_decoder_engine.md R150): `READCODE(CODE_WIDTH)`, which may
raise, and the classification of the code. A `CODE_WIDTH` that is not 9..12 is refused by name (log 14). -/
def State.engineAction (s : State) : Action :=
  if legalWidth s.codeWidth.toNat then
    match s.readCode s.codeWidth.toNat with
    | .error e => .done (.next (s.raise e))
    | .ok (c, s₁) => .run (classify s₁.ctx c) s₁
  else .done (.refused .widthNotLegal)

/-- A host read of `OUT[a]` (20_memory.md R69, 44_host_command.md R216): a free value while `BUSY` (log 7), the byte
after. DESIGN CHOICE (log 17): what bounds the read is not `OUT_CAP` as it now stands but the bytes of `OUT` the host has
given so far, so that the bytes of a command that ended stay readable when the host lowers `OUT_CAP`; beyond them there
is no such address (R60). DESIGN CHOICE (log 26): once `BUSY` is over the byte is returned whether or not the host has read
`STATUS` before (R69(a), 92_eei_decisions.md D13). -/
def State.readOut (s : State) (a : Nat) : Host.Outcome State Fault Refusal :=
  if a < s.outGiven then
    if s.busy then .next s.receiveDraw
    else .next (s.receive ((s.outByte a).setWidth 32))
  else .fault .outsideOut

/-- The state with the host's next move taken off its list. -/
def State.takeMove (s : State) : State := { s with script := s.script.tail }

/-- A move of the host (44_host_command.md R216). A write to `CTRL` with bit 0 = 1 is the instruction START (R211).
DESIGN CHOICE (log 18): a declaration of overlap made while `BUSY` counts for the next START, and the running command goes
on with separate memories. -/
def State.hostAction (s : State) : HostMove → Action
  | .write off v =>
    if off = 0x00#32 then
      match decodeCtrlWrite v with
      | .ok i => .run i s
      | .error _ => .done (.next (s.regWrite off v))
    else .done (.next (s.regWrite off v))
  | .read off => .done (.next (s.receive (s.regRead off)))
  | .loadIn a b =>
    .done (if s.busy then .refused .hostMemoryWriteWhileBusy else .next (s.putIn a.toNat b))
  | .loadOut a b =>
    .done (if s.busy then .refused .hostMemoryWriteWhileBusy else .next (s.putOut a.toNat b))
  | .readOut a => .done (s.readOut a.toNat)
  | .declareOverlap b => .done (.next (s.declareOverlap b))
  | .wait => if s.busy then s.engineAction else .done (.next s)

/-- The block with no host move pending: an engine step where one is enabled; nothing in `IDLE` and `DONE`, where
none is (42_decoder_engine.md R151; log 11); the fault in `FAILED` (60_exceptions.md R243; log 10). -/
def State.quietAction (s : State) : Action :=
  match s.engState with
  | .idle => .done (.next s)
  | .cleared => s.engineAction
  | .running => s.engineAction
  | .done => .done (.next s)
  | .failed => .done (.fault (.commandFailed s.errKind))

/-- What the next step does. With the refusal mark set there is no step (44_host_command.md R212, log 9). -/
def State.nextAction (s : State) : Action :=
  if s.refusedMark then .done (.refused .commandRefused)
  else
    match s.script with
    | [] => s.quietAction
    | m :: _ => s.takeMove.hostAction m

/-- Writes one bit of the stream into `IN` (20_memory.md R62). -/
def State.putBit (s : State) (n : Nat) (b : Bool) : State :=
  s.putIn (n / 8)
    (BitVec.ofNat 8 ((s.inByte (n / 8)).toNat - ((s.inByte (n / 8)).toNat / 2 ^ (7 - n % 8) % 2) * 2 ^ (7 - n % 8)
      + b.toNat * 2 ^ (7 - n % 8)))

/-- Writes a run of bits into `IN` from stream position `n` on. -/
def State.putBits (s : State) : Nat → List Bool → State
  | _, [] => s
  | n, b :: rest => (s.putBit n b).putBits (n + 1) rest

/-- The least legal width at which a code fits (30_encoding.md R80). -/
def widthFor (c : Nat) : Nat :=
  if c < 512 then 9 else if c < 1024 then 10 else if c < 2048 then 11 else 12

/-- A running command in which a code word can be read: the state itself when `BUSY`; else what the host's launch of
the stream `LIT 0; LIT 0` with `OUT_CAP` = 16, `ROW_STRIDE` = 1 and `SPP` = 1 leaves after those two code words, the
context `tableCtx` (log 15). -/
def State.forCodeWord (s : State) : State :=
  if s.busy then s
  else
    { s.startValues with
      engState := .running, outCap := 16#32, outGiven := max s.outGiven 16, rowStride := 1#32, spp := 1#32, inLen := 5#32,
      bitPos := 18#35, outPos := 2#32, prev := [0#8], nextCode := 259#12,
      entry := Table.write (Table.resetFixed s.entry) 258 [0#8, 0#8] }

/-- Places the code `c` where the next engine step reads it: at `BIT_POS`, at `CODE_WIDTH` or, where the code does
not fit, at the least width at which it does, with `IN_LEN` no less than that takes. The host waits for that step. -/
def State.placeCode (s : State) (c : Nat) : State :=
  let w := if legalWidth s.codeWidth.toNat && decide (c < 2 ^ s.codeWidth.toNat) then s.codeWidth.toNat else widthFor c
  let n := (s.bitPos.toNat + w + 7) / 8
  let t := s.putBits s.bitPos.toNat (codeBits w c)
  { t with
    codeWidth := BitVec.ofNat 4 w,
    inLen := if s.inLen.toNat < n then BitVec.ofNat 32 n else s.inLen,
    script := .wait :: s.script, refusedMark := false }

/-- Places a host write of `v` to `CTRL` as the host's next move. -/
def State.placeCtrlWrite (s : State) (v : Word32) : State :=
  { s with script := .write 0x00#32 v :: s.script, refusedMark := false }

end Sys2Proof.Machine
end

