-- ==== Sys2Proof/Machine/Step.lean ====
section
/-! DEFINITION. One step of the machine: what happens next (`State.nextAction`), and the run of the instruction if it
is one. -/

namespace Sys2Proof.Machine

/-- Runs an action. -/
def Action.outcome : Action → Host.Outcome State Fault Refusal
  | .done o => o
  | .run i s => exec i s

/-- One step: the host's next move, or an engine step, or nothing (00_scope.md R9, R10). -/
def step (s : State) : Host.Outcome State Fault Refusal := s.nextAction.outcome

/-- The state with the instruction whose table bits are `w` stored where the next step fetches it (log 15): a code
word at `BIT_POS` of `IN` of a running command, a `CTRL` write as the host's next move. -/
def State.withFetchWord (s : State) (nbits w : Nat) : State :=
  if isCodeRow nbits then s.forCodeWord.placeCode (w % 4096) else s.placeCtrlWrite (BitVec.ofNat 32 w)

end Sys2Proof.Machine
end

