-- ==== Sys2Proof/Safety.lean ====
section
/-! DEFINITION. The terms the claims use: the invariants of the machine (10_state.md R36 with R22, R29 to R31), the
turn of the engine, the string a code stands for, and what a string code leaves. -/

namespace Sys2Proof.Machine

/-- `CODE_WIDTH` as a function of `NEXT_CODE` (10_state.md R29). -/
def widthOf (n : Nat) : Nat := if n < 511 then 9 else if n < 1023 then 10 else if n < 2047 then 11 else 12

/-- What holds between engine steps while a command runs (10_state.md R36 (1) to (6), R30, R31, 44_host_command.md
R212). -/
structure State.CommandInv (s : State) : Prop where
  /-- R36 (1). -/
  nextCode_ge : 258 ≤ s.nextCode.toNat
  /-- R36 (1). -/
  nextCode_le : s.nextCode.toNat ≤ 4094
  /-- R36 (2). -/
  width : s.codeWidth.toNat = widthOf s.nextCode.toNat
  /-- R36 (3). -/
  prev_iff : s.engState = .cleared ↔ s.prev = []
  /-- R36 (4). -/
  cleared_next : s.engState = .cleared → s.nextCode.toNat = 258
  /-- R36 (5). -/
  bitPos_le : s.bitPos.toNat ≤ 8 * s.inLen.toNat
  /-- R36 (6). -/
  outPos_le : s.outPos.toNat ≤ s.outCap.toNat
  /-- 44_host_command.md R212: legal at START, and fixed while `BUSY` (R214). -/
  rowStride_pos : 1 ≤ s.rowStride.toNat
  /-- 44_host_command.md R212. -/
  spp_pos : 1 ≤ s.spp.toNat
  /-- 44_host_command.md R212. -/
  spp_le : s.spp.toNat ≤ s.sppMax
  /-- R31: `ENTRY[k] = [k]` for 0 ≤ k ≤ 255, `ENTRY[256]` and `ENTRY[257]` are ε. -/
  fixed : ∀ k, k < 258 → s.tblEntry k = Table.unwritten k
  /-- R31: an appended entry has 2 to `L_MAX` bytes. -/
  appended : ∀ k, 258 ≤ k → k < s.nextCode.toNat → 2 ≤ (s.tblEntry k).length ∧ (s.tblEntry k).length ≤ s.lMax
  /-- R30: `PREV` has at most `L_MAX` bytes. -/
  prev_le : s.prev.length ≤ s.lMax

/-- The invariant of the machine. -/
structure State.Inv (s : State) : Prop where
  /-- 00_scope.md R12. -/
  lMax_pos : 1 ≤ s.lMax
  /-- 00_scope.md R12. -/
  sppMax_pos : 1 ≤ s.sppMax
  /-- 10_state.md R33: there are `SPP_MAX` lanes. -/
  lanes : s.lane.length = s.sppMax
  /-- `IN` keeps its canonical form. -/
  in_wf : Memory.wf s.inMem = true
  /-- `OUT` keeps its canonical form. -/
  out_wf : Memory.wf s.outMem = true
  /-- The Code Table keeps its canonical form. -/
  entry_wf : Table.wf s.entry = true
  /-- 10_state.md R22: `ERR_KIND` is `NONE` in every `ENG_STATE` except `FAILED`, where it names the error. -/
  err_iff : s.errKind = .noError ↔ s.engState ≠ .failed
  /-- 10_state.md R30: `PREV` is ε in `IDLE`. -/
  idle_prev : s.engState = .idle → s.prev = []
  /-- The host has given the `OUT_CAP` bytes of `OUT` (44_host_command.md R216, log 17). -/
  given_cap : s.outCap.toNat ≤ s.outGiven
  /-- The bytes written lie in what the host has given, also after it lowers `OUT_CAP` (20_memory.md R64, R69). -/
  given_pos : s.outPos.toNat ≤ s.outGiven
  /-- 10_state.md R36. -/
  command : s.busy = true → s.CommandInv

/-- The length bound of 41_code_table.md R137: entry `k` has at most `k − 256` bytes, and (step 3 of its proof)
`PREV` at most `NEXT_CODE − 257`. -/
def State.LengthBound (s : State) : Prop :=
  s.busy = true →
    (∀ k, 258 ≤ k → k < s.nextCode.toNat → (s.tblEntry k).length ≤ k - 256) ∧
      s.prev.length ≤ s.nextCode.toNat - 257

/-- The lane file of a command with the predictor on (43_predictor.md R197: "offset `i − SPP` lies in the same row
and the same lane, and wrote `LANE[lane]` last"): each of the last `SPP` bytes written, where it lies in the row of
the next byte, is in its lane. -/
def State.LaneInv (s : State) : Prop :=
  s.busy = true → s.usePred = true →
    ∀ j, j < s.outPos.toNat → s.outPos.toNat ≤ j + s.spp.toNat →
      j / s.rowStride.toNat = s.outPos.toNat / s.rowStride.toNat →
      s.lane.getD (j % s.rowStride.toNat % s.spp.toNat) 0#8 = s.outByte j

/-- The next step is the engine's: a command is running, no command was refused, and the host has no move or waits. -/
def State.engineTurn (s : State) : Bool :=
  s.busy && !s.refusedMark && (decide (s.script = []) || decide (s.script.head? = some .wait))

/-- The string a code word stands for (42_decoder_engine.md R154 to R156); none for the others. -/
def State.resolved (s : State) : Instr → Option Str
  | .lit b => some [b]
  | .ref k => if s.isRef k then some (s.tblEntry k.toNat) else none
  | .pend k => if s.isPend k then some (s.prev ++ [s.prev.headD 0#8]) else none
  | _ => none

/-- What `EMIT(cur)` leaves in `OUT` and `OUT_POS` (43_predictor.md R191, R194, R195, R196, R197): the bytes of `cur`
from `OUT_POS` on, each reconstructed, and every other byte as it was. -/
structure Emitted (s : State) (cur : Str) (t : State) : Prop where
  /-- `OUT_POS` advances by the length of the string (10_state.md R32). -/
  outPos : t.outPos.toNat = s.outPos.toNat + cur.length
  /-- A byte with the predictor off, or in the first pixel of its row, is written unchanged (R194, R195). -/
  plain : ∀ k, k < cur.length →
    (s.usePred = false ∨ (s.outPos.toNat + k) % s.rowStride.toNat < s.spp.toNat) →
    t.outByte (s.outPos.toNat + k) = cur.getD k 0#8
  /-- Any other byte is the sum, modulo 256, of the decoded byte and the byte `SPP` offsets before (R196, R197). -/
  summed : ∀ k, k < cur.length → s.usePred = true →
    s.spp.toNat ≤ (s.outPos.toNat + k) % s.rowStride.toNat →
    t.outByte (s.outPos.toNat + k) = cur.getD k 0#8 + t.outByte (s.outPos.toNat + k - s.spp.toNat)
  /-- Nothing else is written (20_memory.md R64). -/
  others : ∀ a, a < s.outPos.toNat ∨ s.outPos.toNat + cur.length ≤ a → t.outByte a = s.outByte a

/-- What a successful append, the new previous string and the width bump leave (42_decoder_engine.md R158 steps 6 to
8, R160, 41_code_table.md R135). -/
structure Appended (s : State) (cur : Str) (t : State) : Prop where
  /-- `ENTRY[NEXT_CODE] <- PREV ++ [CUR[0]]`. -/
  stored : t.tblEntry s.nextCode.toNat = s.prev ++ [cur.headD 0#8]
  /-- Every other slot stays. -/
  others : ∀ k, k ≠ s.nextCode.toNat → t.tblEntry k = s.tblEntry k
  /-- `NEXT_CODE <- NEXT_CODE + 1`. -/
  nextCode : t.nextCode.toNat = s.nextCode.toNat + 1
  /-- `PREV <- CUR`. -/
  prev : t.prev = cur
  /-- `ENG_STATE <- RUNNING`. -/
  engState : t.engState = .running
  /-- The width grows by 1, capped at 12, when `NEXT_CODE` becomes 511, 1023 or 2047, and stays otherwise. -/
  width : t.codeWidth.toNat =
    if s.nextCode.toNat + 1 = 511 ∨ s.nextCode.toNat + 1 = 1023 ∨ s.nextCode.toNat + 1 = 2047
    then min (s.codeWidth.toNat + 1) 12 else s.codeWidth.toNat
  /-- No error. -/
  errKind : t.errKind = s.errKind

/-- What the host set up and what no code word touches: the parameters, the configuration, `IN`, the host agent's own
fields and the refusal mark. -/
structure SameSetting (s t : State) : Prop where
  lMax : t.lMax = s.lMax
  sppMax : t.sppMax = s.sppMax
  usePred : t.usePred = s.usePred
  inLen : t.inLen = s.inLen
  outCap : t.outCap = s.outCap
  rowStride : t.rowStride = s.rowStride
  spp : t.spp = s.spp
  inMem : t.inMem = s.inMem
  outGiven : t.outGiven = s.outGiven
  overlap : t.overlap = s.overlap
  refusedMark : t.refusedMark = s.refusedMark
  script : t.script = s.script
  hostData : t.hostData = s.hostData
  draws : t.draws = s.draws

/-- The Code Table as it was (`NEXT_CODE`, `CODE_WIDTH`, every slot) and the previous string. -/
structure SameTable (s t : State) : Prop where
  nextCode : t.nextCode = s.nextCode
  codeWidth : t.codeWidth = s.codeWidth
  entry : t.entry = s.entry
  prev : t.prev = s.prev

/-- The output side as it was: `OUT`, `OUT_POS` and the lanes. -/
structure SameOutput (s t : State) : Prop where
  outMem : t.outMem = s.outMem
  outPos : t.outPos = s.outPos
  lane : t.lane = s.lane

/-- Two states that differ at most in slots of the Code Table no rule can read: those from `NEXT_CODE` up while a
command runs (41_code_table.md R130, R132), any while none does (10_state.md R37, R38). -/
structure AgreeButStale (s t : State) : Prop where
  /-- Every field but the table is equal. -/
  rest : { t with entry := s.entry } = s
  /-- Every slot a rule can read is equal. -/
  live : s.busy = true → ∀ k, k < s.nextCode.toNat → t.tblEntry k = s.tblEntry k

/-- What the host's configuration and the platform's parameters are, with `IN` and `OUT`'s declaration: what START
reads and what it leaves (44_host_command.md R211, R212, 10_state.md R38). -/
structure SameLaunch (s t : State) : Prop where
  lMax : t.lMax = s.lMax
  sppMax : t.sppMax = s.sppMax
  inLen : t.inLen = s.inLen
  outCap : t.outCap = s.outCap
  rowStride : t.rowStride = s.rowStride
  spp : t.spp = s.spp
  inMem : t.inMem = s.inMem
  outMem : t.outMem = s.outMem
  outGiven : t.outGiven = s.outGiven
  overlap : t.overlap = s.overlap
  script : t.script = s.script
  hostData : t.hostData = s.hostData
  draws : t.draws = s.draws

/-- What the assembler tracks, read off a running command (30_encoding.md R88). -/
def State.asm (s : State) : AsmState := ⟨s.ctx, s.codeWidth.toNat⟩

end Sys2Proof.Machine
end

