-- ==== Sys2Proof/Certificates/Slice0/Obligations.lean ====
section
/-! DEFINITION. The statements for the provers, grouped as the spec's files are. Where a title says the model's choice,
the docstring names the log entry. -/

open Sys2Proof Sys2Proof.Machine

/-! ### Bit Reader and decoding (40_bit_reader.md, 30_encoding.md) -/

/-- 40_bit_reader.md R111, 30_encoding.md R81, 20_memory.md R62: `READCODE(w)` fails when fewer than `w` bits remain;
else its code is the sum of the stream bits from `BIT_POS`, the first the most significant, and `BIT_POS` alone is
written, advanced by `w`. -/
def Obligations.ReadCodeIsMostSignificantBitFirst : Prop :=
  ∀ (s : State) (w : Nat), 9 ≤ w → w ≤ 12 →
    (8 * s.inLen.toNat < s.bitPos.toNat + w → s.readCode w = .error .unexpectedEndOfInput) ∧
    (s.bitPos.toNat + w ≤ 8 * s.inLen.toNat →
      ∃ (c : Code) (t : State), s.readCode w = .ok (c, t) ∧
        c.toNat = ∑ j ∈ Finset.range w,
          ((s.inByte ((s.bitPos.toNat + j) / 8)).getLsbD (7 - (s.bitPos.toNat + j) % 8)).toNat * 2 ^ (w - 1 - j) ∧
        t.bitPos.toNat = s.bitPos.toNat + w ∧ t = { s with bitPos := t.bitPos })

/-- 30_encoding.md R84: the class of a code in a legal context, row by row. -/
def Obligations.ClassificationFollowsTheTable : Prop :=
  ∀ (x : Ctx) (c : Code), x.legal = true →
    (c.toNat = 256 → classify x c = .clear) ∧
    (c.toNat = 257 → classify x c = .eoi) ∧
    (c.toNat = x.nextCode → x.running = true → classify x c = .pend c) ∧
    (c.toNat = x.nextCode → x.running = false → classify x c = .invalid c) ∧
    (c.toNat ≤ 255 → ∃ b : Byte, b.toNat = c.toNat ∧ classify x c = .lit b) ∧
    (258 ≤ c.toNat → c.toNat < x.nextCode → classify x c = .ref c) ∧
    (x.nextCode < c.toNat → classify x c = .invalid c)

/-- 30_encoding.md R85: while a command runs, the all-ones code of the current width is always `INVALID`. -/
def Obligations.AllOnesCodeIsInvalid : Prop :=
  ∀ (s : State) (c : Code), s.Inv → s.busy = true → c.toNat = 2 ^ s.codeWidth.toNat - 1 →
    classify s.ctx c = .invalid c

/-- In every legal context, at every legal width, an instruction that is well formed there and whose code fits has a
code word, and whatever bits follow it, decoding gives the instruction and leaves those bits; a START word is read
as START (30_encoding.md R80, R81, R84; 44_host_command.md R211). -/
def Obligations.DecodeOfEncodeIsTheInstruction : Prop :=
  ∀ (x : Ctx) (i : Instr), x.legal = true → i.wfIn x = true →
    (∀ (c : Code) (w : Nat), encodeCode i = some c → 9 ≤ w → w ≤ 12 → c.toNat < 2 ^ w →
      ∃ bits, encode w i = some bits ∧ bits.length = w ∧
        ∀ rest, decodeBits x w (bits ++ rest) = .ok (i, rest)) ∧
    (i.isCodeWord = true → ∃ c, encodeCode i = some c) ∧
    (i.isCodeWord = false → ∃ v, encodeCtrlWrite i = some v ∧ decodeCtrlWrite v = .ok i)

/-- Whatever the decoder reads is well formed, and the encoder gives back the very bits it was read from
(30_encoding.md R80, R81). -/
def Obligations.EncodeOfDecodeIsTheCodeWord : Prop :=
  ∀ (x : Ctx) (w : Nat) (bits rest : List Bool) (i : Instr), x.legal = true →
    decodeBits x w bits = .ok (i, rest) →
    i.wfIn x = true ∧ ∃ word, encode w i = some word ∧ bits = word ++ rest

/-- Code words written out bit by bit from 30_encoding.md R80, R89 and the encodings of spec/opcode_table.json, one of
each class, with a START word of 44_host_command.md R211. -/
def Obligations.WrittenOutWordsDecode : Prop :=
  decodeBits ⟨258, false⟩ 9 [true, false, false, false, false, false, false, false, false] = .ok (.clear, []) ∧
  decodeBits ⟨300, true⟩ 10 [false, true, false, false, false, false, false, false, false, true] = .ok (.eoi, []) ∧
  decodeBits ⟨258, false⟩ 9 [false, false, true, false, false, false, false, false, true] = .ok (.lit 0x41#8, []) ∧
  decodeBits ⟨260, true⟩ 9 [true, false, false, false, false, false, false, true, false] = .ok (.ref 258#12, []) ∧
  decodeBits ⟨260, true⟩ 9 [true, false, false, false, false, false, true, false, false] = .ok (.pend 260#12, []) ∧
  decodeBits ⟨260, true⟩ 9 [true, false, false, false, false, false, true, true, false] = .ok (.invalid 262#12, []) ∧
  decodeBits ⟨258, false⟩ 9 [true, false, false, false, false, false, false, true, false] = .ok (.invalid 258#12, []) ∧
  decodeCtrlWrite 0x3#32 = .ok (.start 0x3#32) ∧
  decodeCtrlWrite 0x2#32 = .error .startBitClear

/-! ### A step -/

/-- On the engine's turn, when the bits at `BIT_POS` decode to an instruction, the step is the run of that instruction on
the state with `BIT_POS` past the code word, advanced by the width read without wrapping, and the host's wait, if it was
one, taken off its list (42_decoder_engine.md R150). -/
def Obligations.StepRunsTheDecodedCodeWord : Prop :=
  ∀ (s : State) (i : Instr), s.engineTurn = true →
    s.bitPos.toNat + s.codeWidth.toNat ≤ 8 * s.inLen.toNat →
    decodeBits s.ctx s.codeWidth.toNat (s.window s.codeWidth.toNat) = .ok (i, []) →
    step s = exec i (s.takeMove.advance s.codeWidth.toNat) ∧
      (s.takeMove.advance s.codeWidth.toNat).bitPos.toNat = s.bitPos.toNat + s.codeWidth.toNat

/-- 40_bit_reader.md R112, at the level of a step (42_decoder_engine.md R150): `FAILED` with `UnexpectedEndOfInput`
(60_exceptions.md R231, R240), and nothing else of the block changes, `BIT_POS` included. The engine's turn and the host's
wait taken off its list are the model's (log 5). -/
def Obligations.StepWithoutAWholeCodeWordFails : Prop :=
  ∀ s : State, s.engineTurn = true → 9 ≤ s.codeWidth.toNat → s.codeWidth.toNat ≤ 12 →
    8 * s.inLen.toNat < s.bitPos.toNat + s.codeWidth.toNat →
    step s = .next { s with
      engState := .failed, errKind := .unexpectedEndOfInput, script := s.script.tail }

/-- A host write to `CTRL` with bit 0 = 1 is the instruction START, run on the state with that move taken off the host's
list (44_host_command.md R211). -/
def Obligations.StepRunsStart : Prop :=
  ∀ (s : State) (w : Word32) (rest : List HostMove), s.refusedMark = false →
    s.script = .write 0x00#32 w :: rest → w.getLsbD 0 = true →
    step s = exec (.start w) { s with script := rest }

/-- While a command runs in a state that meets the invariant, the engine's turn always answers a next state: it neither
stops nor refuses ("No command hangs", 44_host_command.md R217). -/
def Obligations.EngineTurnAlwaysAnswers : Prop :=
  ∀ s : State, s.Inv → s.engineTurn = true → ∃ t, step s = .next t

/-! ### Host command and registers (44_host_command.md, 10_state.md) -/

/-- 44_host_command.md R211 and 10_state.md R38: START with its preconditions met, from any state that is not `BUSY`,
answers the START values; the configuration but `USE_PRED` stays. -/
def Obligations.StartBeginsACommand : Prop :=
  ∀ (s : State) (w : Word32), s.busy = false → w.getLsbD 0 = true → 1 ≤ s.rowStride.toNat → 1 ≤ s.spp.toNat →
    s.spp.toNat ≤ s.sppMax → s.overlap = false →
    ∃ t, exec (.start w) s = .next t ∧ t.engState = .cleared ∧ t.errKind = .noError ∧ t.usePred = w.getLsbD 1 ∧
      t.nextCode = 258#12 ∧ t.codeWidth = 9#4 ∧ t.prev = [] ∧ t.bitPos = 0#35 ∧ t.outPos = 0#32 ∧
      t.lane = List.replicate s.sppMax 0#8 ∧
      (∀ k, k ≤ 255 → t.tblEntry k = [BitVec.ofNat 8 k]) ∧ t.tblEntry 256 = [] ∧ t.tblEntry 257 = [] ∧
      (∀ k, 258 ≤ k → t.tblEntry k = s.tblEntry k) ∧ t.refusedMark = s.refusedMark ∧ SameLaunch s t

/-- 44_host_command.md R212: START against a precondition sets `USE_PRED` and the refusal mark and nothing else, and in a
state that holds the mark there is no step: the mark is never lost. -/
def Obligations.StartAgainstAPreconditionIsRefused : Prop :=
  (∀ (s : State) (w : Word32), s.busy = false → w.getLsbD 0 = true →
    (s.rowStride.toNat = 0 ∨ s.spp.toNat = 0 ∨ s.sppMax < s.spp.toNat ∨ s.overlap = true) →
    exec (.start w) s = .next { s with usePred := w.getLsbD 1, refusedMark := true }) ∧
  (∀ s : State, s.refusedMark = true → step s = .refused .commandRefused)

/-- 44_host_command.md R214: while `BUSY`, a START and every other register write leave everything as it is, and a host
write to `IN` or `OUT` is no move of the model. -/
def Obligations.HostWritesWhileBusyAreIgnored : Prop :=
  ∀ s : State, s.busy = true →
    (∀ w : Word32, exec (.start w) s = .next s) ∧
    (∀ (m : HostMove) (rest : List HostMove), s.refusedMark = false → s.script = m :: rest →
      (∀ off v, m = .write off v → step s = .next { s with script := rest }) ∧
      (∀ a b, m = .loadIn a b ∨ m = .loadOut a b → step s = .refused .hostMemoryWriteWhileBusy))

/-- 10_state.md R23: `STATUS`. -/
def Obligations.StatusIsComputedFromEngineState : Prop :=
  ∀ s : State,
    (s.engState = .idle → s.status = 0#32) ∧
    (s.engState = .cleared ∨ s.engState = .running → s.status = 1#32) ∧
    (s.engState = .done → s.status = 2#32) ∧
    (s.engState = .failed → s.errKind = .unexpectedEndOfInput → s.status = 3#32) ∧
    (s.engState = .failed → s.errKind = .invalidCode → s.status = 4#32) ∧
    (s.engState = .failed → s.errKind = .tableOverflow → s.status = 5#32) ∧
    (s.engState = .failed → s.errKind = .outputOverflow → s.status = 6#32) ∧
    s.status.toNat ≤ 6 ∧ (∀ k, 4 ≤ k → s.status.getLsbD k = false)

/-- A host read of a register, in every state, returns what the register map gives and changes nothing else
(10_state.md R24). That `BYTES_WRITTEN` reads the latest `OUT_POS` also while `BUSY` is the model's reading (log 16) of
20_memory.md R69(b), "as it stood after some completed engine step". -/
def Obligations.HostReadsFollowTheRegisterMap : Prop :=
  ∀ (s : State) (off : Word32) (rest : List HostMove), s.refusedMark = false → s.script = .read off :: rest →
    ∃ v, step s = .next { s with script := rest, hostData := v } ∧
      (off = 0x00#32 → v = if s.usePred then 2#32 else 0#32) ∧
      (off = 0x04#32 → v = s.status) ∧
      (off = 0x08#32 → v = s.inLen) ∧
      (off = 0x0C#32 → v = s.outCap) ∧
      (off = 0x10#32 → v = s.rowStride) ∧
      (off = 0x14#32 → v = s.spp) ∧
      (off = 0x18#32 → v = s.outPos) ∧
      (off ∉ [0x00#32, 0x04#32, 0x08#32, 0x0C#32, 0x10#32, 0x14#32, 0x18#32] → v = 0#32)

/-- A host write of a register while no command runs, START apart, writes what the register map gives and nothing else;
of a read-only register or another offset, nothing (10_state.md R24, 44_host_command.md R211). How much of `OUT` the host
has given is the model's own record (log 17). -/
def Obligations.HostWritesFollowTheRegisterMap : Prop :=
  ∀ (s : State) (off v : Word32) (rest : List HostMove), s.refusedMark = false → s.busy = false →
    s.script = .write off v :: rest →
    (off = 0x00#32 → v.getLsbD 0 = false → step s = .next { s with script := rest, usePred := v.getLsbD 1 }) ∧
    (off = 0x08#32 → step s = .next { s with script := rest, inLen := v }) ∧
    (off = 0x0C#32 →
      step s = .next { s with script := rest, outCap := v, outGiven := max s.outGiven v.toNat }) ∧
    (off = 0x10#32 → step s = .next { s with script := rest, rowStride := v }) ∧
    (off = 0x14#32 → step s = .next { s with script := rest, spp := v }) ∧
    (off ∉ [0x00#32, 0x08#32, 0x0C#32, 0x10#32, 0x14#32] → step s = .next { s with script := rest })

/-- The host reads `OUT`: while `BUSY`, the next free value, whatever it is (20_memory.md R69(b), log 7); else, whether or
not the host has read `STATUS` before (the model's choice, log 26), the byte that is there. In a state that meets the
invariant every offset below `OUT_CAP`, and every one below `OUT_POS` (44_host_command.md R216, whatever `OUT_CAP` now
holds; the model's choice, log 17), is such an offset; beyond what the host has given there is none, and the model stops
by name (20_memory.md R60; its own bound, log 17). -/
def Obligations.HostReadsOfOutput : Prop :=
  ∀ (s : State) (a : Word32) (rest : List HostMove), s.refusedMark = false → s.script = .readOut a :: rest →
    (a.toNat < s.outGiven → s.busy = true →
      step s = .next { s with
        script := rest, hostData := (Config.freeOutByte s.draws).setWidth 32, draws := s.draws + 1 }) ∧
    (a.toNat < s.outGiven → s.busy = false →
      step s = .next { s with script := rest, hostData := (s.outByte a.toNat).setWidth 32 }) ∧
    (s.Inv → a.toNat < s.outCap.toNat ∨ a.toNat < s.outPos.toNat → a.toNat < s.outGiven) ∧
    (s.outGiven ≤ a.toNat → step s = .fault .outsideOut)

/-- While no command runs the host's loads put the byte at the offset in `IN` or `OUT` and leave every other byte of both
(44_host_command.md R216), and its declaration of overlap is recorded (20_memory.md R61). -/
def Obligations.HostLoadsFillTheMemories : Prop :=
  ∀ (s : State) (a : Word32) (b : Byte) (o : Bool) (rest : List HostMove),
    s.Inv → s.refusedMark = false → s.busy = false →
    (s.script = .loadIn a b :: rest → ∃ t, step s = .next t ∧ t.inByte a.toNat = b ∧
      (∀ k, k ≠ a.toNat → t.inByte k = s.inByte k) ∧ t = { s with script := rest, inMem := t.inMem }) ∧
    (s.script = .loadOut a b :: rest → ∃ t, step s = .next t ∧ t.outByte a.toNat = b ∧
      (∀ k, k ≠ a.toNat → t.outByte k = s.outByte k) ∧
      t = { s with script := rest, outMem := t.outMem, outGiven := max s.outGiven (a.toNat + 1) }) ∧
    (s.script = .declareOverlap o :: rest → step s = .next { s with script := rest, overlap := o })

/-! ### Control codes (42_decoder_engine.md) -/

/-- 42_decoder_engine.md R152 with 41_code_table.md R130: `CLEAR` while a command runs. `BIT_POS` is advanced by the read
(`StepRunsTheDecodedCodeWord`). -/
def Obligations.ClearResetsTheDictionary : Prop :=
  (∀ x : Ctx, classify x 256#12 = .clear) ∧
  ∀ s : State, s.busy = true →
    ∃ t, exec .clear s = .next t ∧ t.engState = .cleared ∧ t.prev = [] ∧ t.nextCode = 258#12 ∧ t.codeWidth = 9#4 ∧
      (∀ k, k ≤ 255 → t.tblEntry k = [BitVec.ofNat 8 k]) ∧ t.tblEntry 256 = [] ∧ t.tblEntry 257 = [] ∧
      (∀ k, 258 ≤ k → t.tblEntry k = s.tblEntry k) ∧
      t.bitPos = s.bitPos ∧ t.errKind = s.errKind ∧ SameOutput s t ∧ SameSetting s t

/-- 42_decoder_engine.md R153: `EOI` while a command runs ends it; `STATUS` reads `OK` and `BYTES_WRITTEN` is `OUT_POS`. -/
def Obligations.EoiEndsTheCommand : Prop :=
  (∀ x : Ctx, classify x 257#12 = .eoi) ∧
  ∀ s : State, s.busy = true →
    ∃ t, exec .eoi s = .next t ∧ t = { s with engState := .done } ∧ t.status = 2#32 ∧ t.regRead 0x18#32 = s.outPos

/-- 42_decoder_engine.md R157: a code above `NEXT_CODE`, or equal to it with no previous string, is `INVALID`, and while a
command runs it raises `InvalidCode`: nothing is emitted and nothing appended (60_exceptions.md R232, R240). -/
def Obligations.InvalidCodeIsRaised : Prop :=
  ∀ (s : State) (k : Code), s.busy = true → 258 ≤ s.nextCode.toNat →
    (s.nextCode.toNat < k.toNat ∨ k.toNat = s.nextCode.toNat ∧ s.engState = .cleared) →
    classify s.ctx k = .invalid k ∧
      exec (.invalid k) s = .next { s with engState := .failed, errKind := .invalidCode }

/-! ### String codes (42_decoder_engine.md) -/

/-- `LIT b` as the first string code after a reset: the byte is emitted, nothing is appended, and it is the previous
string (42_decoder_engine.md R154, R158, R159). -/
def Obligations.LiteralAfterAReset : Prop :=
  ∀ (s : State) (b : Byte), s.Inv → s.LaneInv → s.engState = .cleared → s.outPos.toNat + 1 ≤ s.outCap.toNat →
    ∃ t, exec (.lit b) s = .next t ∧ Emitted s [b] t ∧ t.prev = [b] ∧ t.engState = .running ∧
      t.nextCode = s.nextCode ∧ t.codeWidth = s.codeWidth ∧ t.entry = s.entry ∧ t.errKind = s.errKind

/-- `LIT b` with a previous string, where the byte fits, the table is not full and the new entry is no longer than
`L_MAX` (42_decoder_engine.md R154, R158, R160). -/
def Obligations.LiteralAppendsAnEntry : Prop :=
  ∀ (s : State) (b : Byte), s.Inv → s.LaneInv → s.engState = .running → s.outPos.toNat + 1 ≤ s.outCap.toNat →
    s.nextCode.toNat < 4094 → s.prev.length + 1 ≤ s.lMax →
    ∃ t, exec (.lit b) s = .next t ∧ Emitted s [b] t ∧ Appended s [b] t

/-- `REF k` under the same conditions: the string of entry `k` (42_decoder_engine.md R155, R158, R160). -/
def Obligations.ReferenceAppendsAnEntry : Prop :=
  ∀ (s : State) (k : Code), s.Inv → s.LaneInv → s.engState = .running →
    258 ≤ k.toNat → k.toNat < s.nextCode.toNat →
    s.outPos.toNat + (s.tblEntry k.toNat).length ≤ s.outCap.toNat →
    s.nextCode.toNat < 4094 → s.prev.length + 1 ≤ s.lMax →
    ∃ t, exec (.ref k) s = .next t ∧ Emitted s (s.tblEntry k.toNat) t ∧ Appended s (s.tblEntry k.toNat) t

/-- `PEND` under the same conditions: the string is `PREV ++ [PREV[0]]`, read from no slot, and the entry appended at `k`
is that very string (42_decoder_engine.md R156, R158, R160). -/
def Obligations.PendingSlotAppendsItsOwnString : Prop :=
  ∀ (s : State) (k : Code), s.Inv → s.LaneInv → s.engState = .running → k = s.nextCode →
    s.outPos.toNat + (s.prev.length + 1) ≤ s.outCap.toNat →
    s.nextCode.toNat < 4094 → s.prev.length + 1 ≤ s.lMax →
    ∃ t, exec (.pend k) s = .next t ∧
      Emitted s (s.prev ++ [s.prev.headD 0#8]) t ∧ Appended s (s.prev ++ [s.prev.headD 0#8]) t ∧
      t.tblEntry k.toNat = s.prev ++ [s.prev.headD 0#8]

/-- 43_predictor.md R193: `EMIT` raises `OutputOverflow` exactly when the string does not fit, and a string code whose
string does not fit raises it whatever else stands against it (60_exceptions.md R236): only `ENG_STATE` and `ERR_KIND`
change, and no byte of it is written. -/
def Obligations.StringThatDoesNotFitRaisesOutputOverflow : Prop :=
  (∀ (s : State) (str : Str),
    s.emit str = .error .outputOverflow ↔ s.outCap.toNat < s.outPos.toNat + str.length) ∧
  ∀ (s : State) (i : Instr) (cur : Str), s.Inv → s.busy = true → s.resolved i = some cur →
    s.outCap.toNat < s.outPos.toNat + cur.length →
    exec i s = .next { s with engState := .failed, errKind := .outputOverflow }

/-- A string code with a previous string, whose append is refused because the table is full or the entry would be longer
than `L_MAX`, raises `TableOverflow` after its whole string has been emitted and before anything of the table, `PREV` or
the width changes (41_code_table.md R134, 42_decoder_engine.md R161, 60_exceptions.md R233, R240). -/
def Obligations.RefusedAppendRaisesTableOverflow : Prop :=
  ∀ (s : State) (i : Instr) (cur : Str), s.Inv → s.LaneInv → s.engState = .running → s.resolved i = some cur →
    s.outPos.toNat + cur.length ≤ s.outCap.toNat →
    (4094 ≤ s.nextCode.toNat ∨ s.lMax < s.prev.length + 1) →
    ∃ t, exec i s = .next t ∧ t.engState = .failed ∧ t.errKind = .tableOverflow ∧ Emitted s cur t ∧ SameTable s t

/-- 41_code_table.md R134, R135: `TBL_APPEND`. -/
def Obligations.TableAppend : Prop :=
  ∀ (s : State) (p : Str) (x : Byte),
    (4094 ≤ s.nextCode.toNat ∨ s.lMax < p.length + 1 → s.tblAppend p x = .error .tableOverflow) ∧
    (Table.wf s.entry = true → s.nextCode.toNat < 4094 → p.length + 1 ≤ s.lMax →
      ∃ t, s.tblAppend p x = .ok t ∧ t.tblEntry s.nextCode.toNat = p ++ [x] ∧
        (∀ k, k ≠ s.nextCode.toNat → t.tblEntry k = s.tblEntry k) ∧
        t.nextCode.toNat = s.nextCode.toNat + 1 ∧ t = { s with entry := t.entry, nextCode := t.nextCode })

/-! ### Predictor Stage (43_predictor.md) -/

/-- `EMIT` of a string that fits, while a command runs: with the predictor off, and in the first pixel of a row, each byte
is written as decoded; any other byte is the sum modulo 256 of the decoded byte and the byte `SPP` offsets before; no other
byte of `OUT` changes; and the lanes again hold the last bytes of the row (43_predictor.md R191, R194 to R197). -/
def Obligations.EmitReconstructsEveryByte : Prop :=
  ∀ (s : State) (str : Str), s.Inv → s.LaneInv → s.busy = true →
    s.outPos.toNat + str.length ≤ s.outCap.toNat →
    ∃ t, s.emit str = .ok t ∧ Emitted s str t ∧ t.LaneInv ∧ t.lane.length = s.lane.length ∧
      t = { s with outMem := t.outMem, outPos := t.outPos, lane := t.lane }

/-- One byte with the predictor on: a byte of the first pixel is written unchanged and is its lane's running value
(43_predictor.md R195); any other is added to its lane, and the sum, modulo 256, is written and is the lane's running value
(R196); at a row start the other lanes are zeroed (R192); the other lanes stay (R200), those from `SPP` up always
(10_state.md R33). -/
def Obligations.EmitOneByte : Prop :=
  ∀ (s : State) (raw : Byte) (l : Nat), Memory.wf s.outMem = true → s.usePred = true → 1 ≤ s.spp.toNat →
    s.spp.toNat ≤ s.lane.length →
    let col := s.outPos.toNat % s.rowStride.toNat
    let v := if col < s.spp.toNat then raw else raw + s.lane.getD (col % s.spp.toNat) 0#8
    (s.emitByte raw).outByte s.outPos.toNat = v ∧
    (s.emitByte raw).lane.getD l 0#8 =
      if s.spp.toNat ≤ l then s.lane.getD l 0#8
      else if l = col % s.spp.toNat then v
      else if col = 0 then 0#8 else s.lane.getD l 0#8

/-- 43_predictor.md R194: with the predictor off the bytes of a string pass through unchanged; `LANE`, `ROW_STRIDE` and
`SPP` are not read (whatever they hold, the rest comes out alike) and stay; and START asks the same of `ROW_STRIDE` and
`SPP`. -/
def Obligations.PredictorOffIsTheIdentity : Prop :=
  ∀ (s : State) (str : Str), s.usePred = false →
    (Memory.wf s.outMem = true → s.outPos.toNat + str.length ≤ s.outCap.toNat →
      ∀ k, k < str.length → (s.emitAll str).outByte (s.outPos.toNat + k) = str.getD k 0#8) ∧
    (∀ (lane : List Byte) (rowStride spp : Word32),
      State.emitAll { s with lane := lane, rowStride := rowStride, spp := spp } str =
        { s.emitAll str with lane := lane, rowStride := rowStride, spp := spp }) ∧
    s.startLegal = ({ s with usePred := true } : State).startLegal

/-- 43_predictor.md R199, the source's Scenario 3: `ROW_STRIDE` = 2400, `SPP` = 3, raw 5 at column 3 over 10 in lane 0. -/
def Obligations.PredictorScenarioThree : Prop :=
  predict 2400 3 3 5#8 [10#8, 0#8, 0#8] = (15#8, [15#8, 0#8, 0#8])

/-! ### Frames -/

/-- No code word, whatever becomes of it, changes the parameters, the configuration, `IN`, the host's own fields or the
refusal mark, and none but its read moves `BIT_POS`: LIT, CLEAR, EOI, REF, PEND, INVALID. -/
def Obligations.CodeWordFrame : Prop :=
  ∀ (i : Instr) (s t : State), i.isCodeWord = true → exec i s = .next t → SameSetting s t ∧ t.bitPos = s.bitPos

/-- What LIT, REF and PEND leave of `OUT`, the table, the lanes and the error state. The bytes stored are those of the
string the meaning resolves, from `OUT_POS` on; the slot stored is `NEXT_CODE`. -/
def Obligations.StringCodeFrame : Prop :=
  ∀ (s t : State) (i : Instr) (cur : Str),
    (∃ b, i = .lit b ∧ cur = s.litString b) ∨ (∃ k, i = .ref k ∧ cur = s.refString k) ∨
      (∃ k, i = .pend k ∧ cur = s.pendString) →
    exec i s = .next t →
    (∀ a, a < s.outPos.toNat ∨ s.outPos.toNat + cur.length ≤ a → t.outByte a = s.outByte a) ∧
    (∀ k, k ≠ s.nextCode.toNat → t.tblEntry k = s.tblEntry k) ∧
    (1 ≤ s.spp.toNat → ∀ l, s.spp.toNat ≤ l → t.lane.getD l 0#8 = s.lane.getD l 0#8) ∧
    (s.usePred = false → t.lane = s.lane) ∧
    (t.engState ≠ .failed → t.errKind = s.errKind) ∧
    (t.engState = .failed → SameTable s t)

/-- What CLEAR, EOI and INVALID leave: all of `OUT`, `OUT_POS` and the lanes; EOI and INVALID the whole table and `PREV`
too, CLEAR the slots from 258 up; CLEAR and EOI the error kind. -/
def Obligations.ControlCodeFrame : Prop :=
  ∀ (s t : State) (i : Instr), (i = .clear ∨ i = .eoi ∨ ∃ k, i = .invalid k) → exec i s = .next t →
    SameOutput s t ∧ (i ≠ .clear → SameTable s t) ∧ (∀ k, 258 ≤ k → t.tblEntry k = s.tblEntry k) ∧
      (i = .clear ∨ i = .eoi → t.errKind = s.errKind)

/-- What START leaves, whatever becomes of it: the parameters, the configuration but `USE_PRED`, all of `IN` and `OUT`,
the host's own fields and the slots from 258 up. -/
def Obligations.StartFrame : Prop :=
  ∀ (s t : State) (w : Word32), exec (.start w) s = .next t →
    SameLaunch s t ∧ ∀ k, 258 ≤ k → t.tblEntry k = s.tblEntry k

/-- Where the meaning of a code word stops, by name (the model's own choice, logs 12 and 13): outside a running command,
with a code of another class, and where the string it resolves is empty. That an engine step from a state that meets the
invariant meets none of them is `EngineTurnAlwaysAnswers`. -/
def Obligations.CodeWordStops : Prop :=
  (∀ (i : Instr) (s : State), i.isCodeWord = true → s.busy = false → exec i s = .refused .engineNotEnabled) ∧
  (∀ (i : Instr) (s : State), i.isCodeWord = true → s.busy = true → i.wfIn s.ctx = false →
    exec i s = .refused .notThisClass) ∧
  (∀ (s : State) (b : Byte), s.busy = true → s.litString b = [] → exec (.lit b) s = .refused .emptyString) ∧
  (∀ (s : State) (k : Code), s.busy = true → (Instr.ref k).wfIn s.ctx = true → s.refString k = [] →
    exec (.ref k) s = .refused .emptyString) ∧
  (∀ (s : State) (k : Code), s.busy = true → (Instr.pend k).wfIn s.ctx = true → s.pendString = [] →
    exec (.pend k) s = .refused .emptyString)

/-! ### Invariants -/

/-- The values 10_state.md R37 gives at power-on, for every value of the two parameters (the values the spec leaves
unspecified are the model's, log 4, and not stated here). -/
def Obligations.PowerOnValues : Prop :=
  ∀ lMax sppMax : Nat,
    (State.powerOn lMax sppMax).engState = .idle ∧ (State.powerOn lMax sppMax).errKind = .noError ∧
    (State.powerOn lMax sppMax).status = 0#32 ∧ (State.powerOn lMax sppMax).usePred = false ∧
    (State.powerOn lMax sppMax).inLen = 0#32 ∧ (State.powerOn lMax sppMax).outCap = 0#32 ∧
    (State.powerOn lMax sppMax).rowStride = 0#32 ∧ (State.powerOn lMax sppMax).spp = 0#32 ∧
    (State.powerOn lMax sppMax).outPos = 0#32 ∧ (State.powerOn lMax sppMax).regRead 0x18#32 = 0#32

/-- The invariants hold at power-on for all legal parameters, and at `State.reset` (the model's values for the
unspecified registers, log 4). -/
def Obligations.InvariantsHoldAtPowerOn : Prop :=
  (∀ lMax sppMax : Nat, 1 ≤ lMax → 1 ≤ sppMax →
    (State.powerOn lMax sppMax).Inv ∧ (State.powerOn lMax sppMax).LaneInv ∧
      (State.powerOn lMax sppMax).LengthBound) ∧
  State.reset.Inv ∧ State.reset.LaneInv ∧ State.reset.LengthBound

/-- Every step keeps the invariant: the canonical memories, the lane count, `ERR_KIND` against `ENG_STATE` (10_state.md
R22), `OUT_CAP` and `OUT_POS` within what the host has given of `OUT` (log 17), and while a command runs 10_state.md R36
(1) to (6), R30 and R31. -/
def Obligations.EveryStepKeepsTheInvariant : Prop :=
  ∀ s t : State, s.Inv → step s = .next t → t.Inv

/-- Every step keeps the lane invariant (43_predictor.md R197). -/
def Obligations.EveryStepKeepsTheLaneInvariant : Prop :=
  ∀ s t : State, s.Inv → s.LaneInv → step s = .next t → t.LaneInv

/-- Every step keeps the length bound: entry `k` has at most `k − 256` bytes (41_code_table.md R137). -/
def Obligations.EveryStepKeepsTheLengthBound : Prop :=
  ∀ s t : State, s.Inv → s.LengthBound → step s = .next t → t.LengthBound

/-- 00_scope.md R13: for `L_MAX` ≥ 3837 the length guard of `TBL_APPEND` never fires while the table is not full: the
append of any byte to `PREV` succeeds. -/
def Obligations.LengthGuardNeverFiresAbove3837 : Prop :=
  ∀ (s : State) (x : Byte), s.Inv → s.LengthBound → 3837 ≤ s.lMax → s.engState = .running →
    s.nextCode.toNat < 4094 → ∃ t, s.tblAppend s.prev x = .ok t

/-! ### Rules over all steps -/

/-- On the engine's turn `BIT_POS` moves by exactly the width read, and only a failed read leaves it (10_state.md R25,
42_decoder_engine.md R163). -/
def Obligations.BitPosAdvancesByTheWidthRead : Prop :=
  ∀ s t : State, s.Inv → s.engineTurn = true → step s = .next t →
    t.bitPos.toNat = s.bitPos.toNat + s.codeWidth.toNat ∨
      (t.bitPos = s.bitPos ∧ t.engState = .failed ∧ t.errKind = .unexpectedEndOfInput)

/-- On the engine's turn `OUT` is written only between the old and the new `OUT_POS`, which grows and stays within
`OUT_CAP`, and `IN` is not written (20_memory.md R63, R64). -/
def Obligations.OutputIsWrittenInOrder : Prop :=
  ∀ s t : State, s.Inv → s.engineTurn = true → step s = .next t →
    s.outPos.toNat ≤ t.outPos.toNat ∧ t.outPos.toNat ≤ s.outCap.toNat ∧
      (∀ a, a < s.outPos.toNat ∨ t.outPos.toNat ≤ a → t.outByte a = s.outByte a) ∧ t.inMem = s.inMem

/-- On the engine's turn, where the command goes on, `NEXT_CODE` stays, grows by 1 with a bump of the width at 511, 1023
and 2047 only, or is reset by a `CLEAR` with the width (10_state.md R28, 42_decoder_engine.md R160, R164). -/
def Obligations.NextCodeAndWidthMoveTogether : Prop :=
  ∀ s t : State, s.Inv → s.engineTurn = true → step s = .next t → t.busy = true →
    (t.nextCode = s.nextCode ∧ t.codeWidth = s.codeWidth) ∨
    (t.nextCode.toNat = s.nextCode.toNat + 1 ∧ t.nextCode.toNat ≤ 4094 ∧
      t.codeWidth.toNat =
        if t.nextCode.toNat = 511 ∨ t.nextCode.toNat = 1023 ∨ t.nextCode.toNat = 2047 then s.codeWidth.toNat + 1
        else s.codeWidth.toNat) ∨
    (t.engState = .cleared ∧ t.nextCode = 258#12 ∧ t.codeWidth = 9#4)

/-- No step writes a slot of index 4094 or above: "slot 4094 never exists" (41_code_table.md R134, 10_state.md R31,
20_memory.md R68). -/
def Obligations.NoSlotBeyondTheTableIsWritten : Prop :=
  ∀ s t : State, s.Inv → step s = .next t → ∀ k, 4094 ≤ k → t.tblEntry k = s.tblEntry k

/-- While a command runs no step, the engine's or the host's, changes its configuration or its input (44_host_command.md
R214, 20_memory.md R72). -/
def Obligations.ConfigurationIsFixedWhileBusy : Prop :=
  ∀ s t : State, s.busy = true → step s = .next t →
    t.usePred = s.usePred ∧ t.inLen = s.inLen ∧ t.outCap = s.outCap ∧ t.rowStride = s.rowStride ∧ t.spp = s.spp ∧
      t.inMem = s.inMem ∧ t.lMax = s.lMax ∧ t.sppMax = s.sppMax

/-- Only START leaves `FAILED`; until then the block's state stays frozen but for what the host writes, and with no host
move left a step of it is the fault of its kind (60_exceptions.md R240 (4), R242, R243). -/
def Obligations.OnlyStartLeavesFailed : Prop :=
  ∀ s : State, s.engState = .failed → s.refusedMark = false →
    (s.script = [] → step s = .fault (.commandFailed s.errKind)) ∧
    (∀ t, step s = .next t →
      (∃ (w : Word32) (rest : List HostMove), s.script = .write 0x00#32 w :: rest ∧ w.getLsbD 0 = true) ∨
      (t.engState = .failed ∧ t.errKind = s.errKind ∧ t.bitPos = s.bitPos ∧ t.outPos = s.outPos ∧ t.lane = s.lane ∧
        SameTable s t))

/-- Where no engine step is enabled and the host has no move, nothing changes: `IDLE` and `DONE` (42_decoder_engine.md
R151; that a step there answers the same state is the model's choice, log 11). -/
def Obligations.IdleAndDoneRest : Prop :=
  ∀ s : State, s.refusedMark = false → s.script = [] → s.engState = .idle ∨ s.engState = .done → step s = .next s

/-- A command left to itself, the host without moves (a host that polls is left out), ends within
⌊(8·`IN_LEN` − `BIT_POS`) / 9⌋ + 1 engine steps; from START, where `BIT_POS` = 0, that is ⌊8·`IN_LEN` / 9⌋ + 1 (44_host_command.md R217). -/
def Obligations.EveryCommandEnds : Prop :=
  ∀ s : State, s.Inv → s.busy = true → s.refusedMark = false → s.script = [] →
    ∃ (n : Nat) (t : State), n ≤ (8 * s.inLen.toNat - s.bitPos.toNat) / 9 + 1 ∧
      core.run n s = .next t ∧ (t.engState = .done ∨ t.engState = .failed)

/-- No step shows what a stale slot holds: of two states that differ only in slots no rule can read, each step answers
alike, and the next states again differ only there (41_code_table.md R130, R132; 93 U5). -/
def Obligations.StaleSlotsCannotBeObserved : Prop :=
  ∀ s s' : State, s.Inv → s'.Inv → AgreeButStale s s' →
    (∀ t, step s = .next t → ∃ t', step s' = .next t' ∧ AgreeButStale t t') ∧
    (∀ r, step s = .fault r → step s' = .fault r) ∧
    (∀ r, step s = .refused r → step s' = .refused r)

/-- A command takes nothing over from before its START: two states that agree in what the host set up, whatever their
engine registers, lanes and tables hold, start alike but for slots no rule can read (10_state.md R38, 70_reset R261). -/
def Obligations.StartForgetsTheEarlierCommand : Prop :=
  ∀ (s s' t : State) (w : Word32), s.busy = false → s'.busy = false → w.getLsbD 0 = true → SameLaunch s s' →
    s'.refusedMark = s.refusedMark → exec (.start w) s = .next t → t.engState = .cleared →
    ∃ t', exec (.start w) s' = .next t' ∧ AgreeButStale t t'

/-- The assembler, which sees only the code words, knows the context and the width of the next one: after a code word that
lets the command go on, the engine's `NEXT_CODE`, its previous-string bit and its width are what the assembler tracked
(30_encoding.md R82, R88, 70_reset R266). -/
def Obligations.AssemblerTracksTheEngine : Prop :=
  ∀ (s t : State) (i : Instr), s.Inv → i.isCodeWord = true → exec i s = .next t → t.busy = true →
    t.asm = s.asm.after i

/-! ### Collecting (44_host_command.md R216) -/

/-- After a command has ended the host may write any value to `OUT_CAP` (44_host_command.md R216, configure) and still
collects every byte the command wrote. That a lowered `OUT_CAP` does not bound the read is the model's choice (log 17,
unsafe on a platform that takes the memory back), as is the read with none of `STATUS` before it (log 26); 20_memory.md
R69(a) settles neither. -/
def Obligations.LoweringOutCapLosesNoByte : Prop :=
  ∀ (s : State) (v a : Word32) (rest : List HostMove), s.Inv → s.refusedMark = false → s.busy = false →
    s.script = .write 0x0C#32 v :: .readOut a :: rest → a.toNat < s.outPos.toNat →
    ∃ t : State, core.run 2 s = .next t ∧ t.hostData = (s.outByte a.toNat).setWidth 32 ∧ t.outCap = v ∧
      t.script = rest
end

