-- ==== Sys2Proof/Laws/PerInstr.lean ====
section
/-! SUPPORT. Statements made per instruction. `CodeRoundTrip`: in every legal context, the code (or the `CTRL` word)
that the encoder gives an instruction that is well formed there is classified as that instruction. -/

namespace Sys2Proof.Laws.CodeRoundTrip

/-- The code of a code word is classified as the instruction (30_encoding.md R84), and the word of a host command is
read as it (44_host_command.md R211). -/
def Statement (i : Instr) : Prop :=
  ∀ x : Ctx, x.legal = true → i.wfIn x = true →
    (i.isCodeWord = true → ∃ c, encodeCode i = some c ∧ classify x c = i) ∧
      (i.isCodeWord = false → ∃ v, encodeCtrlWrite i = some v ∧ decodeCtrlWrite v = .ok i)

/-- 258 ≤ `NEXT_CODE` ≤ 4094 (10_state.md R28). -/
theorem legal_iff {x : Ctx} : x.legal = true ↔ 258 ≤ x.nextCode ∧ x.nextCode ≤ 4094 := by
  simp only [Ctx.legal, Bool.and_eq_true, decide_eq_true_eq]

/-- The classification order of 30_encoding.md R84, in numerals. -/
theorem classify_eq (x : Ctx) (c : Code) : classify x c =
    if c.toNat = 256 then .clear
    else if c.toNat = 257 then .eoi
    else if c.toNat = x.nextCode then (if x.running then .pend c else .invalid c)
    else if c.toNat ≤ 255 then .lit (c.setWidth 8)
    else if c.toNat < x.nextCode then .ref c
    else .invalid c := rfl

theorem lit (b : Byte) : Statement (.lit b) := by
  intro x hx _
  refine ⟨fun _ => ⟨_, rfl, ?_⟩, fun h => by cases h⟩
  have hb := b.isLt
  have hx := (legal_iff.mp hx).1
  have ht : (BitVec.setWidth 12 b).toNat = b.toNat := by
    simp only [BitVec.toNat_setWidth]
    exact Nat.mod_eq_of_lt (by omega)
  simp only [classify_eq, ht]
  rw [if_neg (by omega), if_neg (by omega), if_neg (by omega), if_pos (by omega)]
  congr 1
  apply BitVec.eq_of_toNat_eq
  simp only [BitVec.toNat_setWidth]
  omega

theorem clear : Statement .clear := by
  intro x _ _
  exact ⟨fun _ => ⟨_, rfl, rfl⟩, fun h => by cases h⟩

theorem eoi : Statement .eoi := by
  intro x _ _
  exact ⟨fun _ => ⟨_, rfl, rfl⟩, fun h => by cases h⟩

theorem ref (k : Code) : Statement (.ref k) := by
  intro x _ hw
  refine ⟨fun _ => ⟨_, rfl, ?_⟩, fun h => by cases h⟩
  simp only [Instr.wfIn, Bool.and_eq_true, decide_eq_true_eq] at hw
  have h258 : 258 ≤ k.toNat := hw.1
  rw [classify_eq]
  rw [if_neg (by omega), if_neg (by omega), if_neg (by omega), if_neg (by omega), if_pos hw.2]

theorem pend (k : Code) : Statement (.pend k) := by
  intro x hx hw
  refine ⟨fun _ => ⟨_, rfl, ?_⟩, fun h => by cases h⟩
  simp only [Instr.wfIn, Bool.and_eq_true, decide_eq_true_eq] at hw
  have hx := (legal_iff.mp hx).1
  rw [classify_eq]
  rw [if_neg (by omega), if_neg (by omega), if_pos hw.1, if_pos hw.2]

theorem invalid (k : Code) : Statement (.invalid k) := by
  intro x hx hw
  refine ⟨fun _ => ⟨_, rfl, ?_⟩, fun h => by cases h⟩
  simp only [Instr.wfIn, Bool.or_eq_true, Bool.and_eq_true, decide_eq_true_eq, Bool.not_eq_true'] at hw
  have hx := (legal_iff.mp hx).1
  rw [classify_eq]
  rw [if_neg (by omega), if_neg (by omega)]
  rcases hw with hw | ⟨hk, hr⟩
  · rw [if_neg (by omega), if_neg (by omega), if_neg (by omega)]
  · simp [hk, hr]

theorem start (w : Word32) : Statement (.start w) := by
  intro x _ hw
  refine ⟨fun h => (by cases h), fun _ => ⟨w, ?_, ?_⟩⟩
  · simpa only [encodeCtrlWrite, Instr.wfIn, ite_eq_left_iff, reduceCtorEq, imp_false, Bool.not_eq_true,
      Bool.not_eq_false] using hw
  · simp only [Instr.wfIn] at hw
    simp [decodeCtrlWrite, hw]

end Sys2Proof.Laws.CodeRoundTrip
end

