-- ==== Sys2Proof/Laws/Codec.lean ====
section
/-! SUPPORT. The bits of a code and the code of its bits (30_encoding.md R81). -/

namespace Sys2Proof

@[simp] theorem codeBits_length (w c : Nat) : (codeBits w c).length = w := by
  induction w with
  | zero => rfl
  | succ w ih => simp [codeBits, ih]

/-- Reading on from a value: each further bit doubles it. -/
theorem codeOfBits_foldl (bits : List Bool) (c : Nat) :
    bits.foldl (fun c b => 2 * c + b.toNat) c = c * 2 ^ bits.length + codeOfBits bits := by
  induction bits generalizing c with
  | nil => simp [codeOfBits]
  | cons b t ih =>
    simp only [codeOfBits, List.foldl_cons, List.length_cons]
    rw [ih, ih (2 * 0 + b.toNat)]
    ring

theorem codeOfBits_cons (b : Bool) (t : List Bool) : codeOfBits (b :: t) = b.toNat * 2 ^ t.length + codeOfBits t := by
  have h := codeOfBits_foldl t (2 * 0 + b.toNat)
  simpa [codeOfBits] using h

theorem codeOfBits_lt (bits : List Bool) : codeOfBits bits < 2 ^ bits.length := by
  induction bits with
  | nil => simp [codeOfBits]
  | cons b t ih =>
    have hb : b.toNat ≤ 1 := Bool.toNat_le b
    rw [codeOfBits_cons, List.length_cons, pow_succ]
    nlinarith [Nat.mul_le_mul_right (2 ^ t.length) hb]

/-- The bits of a code that fits read back as the code. -/
theorem codeOfBits_codeBits (w c : Nat) : codeOfBits (codeBits w c) = c % 2 ^ w := by
  induction w with
  | zero => simp [codeBits, codeOfBits, Nat.mod_one]
  | succ w ih =>
    rw [codeBits, codeOfBits_cons, codeBits_length, ih, Nat.mod_pow_succ, Nat.testBit_eq_decide_div_mod_eq]
    rcases Nat.mod_two_eq_zero_or_one (c / 2 ^ w) with h | h <;> simp [h, Nat.add_comm]

/-- The code of a run of bits has those bits. -/
theorem codeBits_codeOfBits (bits : List Bool) : codeBits bits.length (codeOfBits bits) = bits := by
  have key : ∀ (w c d : Nat), codeBits w (d * 2 ^ w + c) = codeBits w c := by
    intro w
    induction w with
    | zero => intros; rfl
    | succ w ih =>
      intro c d
      have h1 : d * 2 ^ (w + 1) + c = d * 2 * 2 ^ w + c := by rw [pow_succ]; ring
      rw [codeBits, codeBits, h1, ih]
      congr 1
      simp only [Nat.testBit_eq_decide_div_mod_eq]
      have h2 : (d * 2 * 2 ^ w + c) / 2 ^ w = d * 2 + c / 2 ^ w := by
        rw [Nat.add_comm, Nat.add_mul_div_right _ _ (Nat.two_pow_pos w), Nat.add_comm]
      rw [h2]
      congr 1
      exact propext ⟨fun h => by omega, fun h => by omega⟩
  induction bits with
  | nil => rfl
  | cons b t ih =>
    rw [List.length_cons, codeBits, codeOfBits_cons, key, ih]
    congr 1
    have ht := codeOfBits_lt t
    rw [Nat.testBit_eq_decide_div_mod_eq, Nat.add_comm, Nat.add_mul_div_right _ _ (Nat.two_pow_pos _),
      Nat.div_eq_of_lt ht]
    cases b <;> simp

/-- What the classification gives is well formed in its context, and its code is the one classified. -/
theorem classify_wfIn {x : Ctx} (hx : x.legal = true) (c : Code) :
    (classify x c).wfIn x = true ∧ encodeCode (classify x c) = some c := by
  have hx := Laws.CodeRoundTrip.legal_iff.mp hx
  rw [Laws.CodeRoundTrip.classify_eq]
  split_ifs with h1 h2 h3 h4 h5 h6
  · exact ⟨rfl, congrArg some (BitVec.eq_of_toNat_eq (by rw [h1]; rfl))⟩
  · exact ⟨rfl, congrArg some (BitVec.eq_of_toNat_eq (by rw [h2]; rfl))⟩
  · exact ⟨by simp [Instr.wfIn, h3, h4], rfl⟩
  · exact ⟨by simp [Instr.wfIn, h3, h4], rfl⟩
  · exact ⟨rfl, congrArg some (BitVec.eq_of_toNat_eq (by simp only [BitVec.toNat_setWidth]; omega))⟩
  · have h : 258 ≤ c.toNat := by omega
    exact ⟨by simp [Instr.wfIn, h, h6], rfl⟩
  · have h : x.nextCode < c.toNat := by omega
    exact ⟨by simp [Instr.wfIn, h], rfl⟩

/-- The classification gives a code word. -/
theorem classify_isCodeWord (x : Ctx) (c : Code) : (classify x c).isCodeWord = true := by
  rw [Laws.CodeRoundTrip.classify_eq]
  split_ifs <;> rfl

/-- The value of a run of bits given by a function: the first bit is the most significant (30_encoding.md R81). -/
theorem codeOfBits_map_range (f : Nat → Bool) (w : Nat) :
    codeOfBits ((List.range w).map f) = ∑ j ∈ Finset.range w, (f j).toNat * 2 ^ (w - 1 - j) := by
  induction w generalizing f with
  | zero => simp [codeOfBits]
  | succ w ih =>
    rw [List.range_succ_eq_map, List.map_cons, List.map_map, codeOfBits_cons, ih, Finset.sum_range_succ']
    simp only [List.length_map, List.length_range, Function.comp, Nat.add_sub_cancel, Nat.sub_zero]
    rw [Nat.add_comm]
    congr 1
    apply Finset.sum_congr rfl
    intro j hj
    congr 2
    simp only [Finset.mem_range] at hj
    omega

/-- The code of `READCODE`'s window: `c = Σ bit(p + j) · 2^(w−1−j)` (30_encoding.md R81). -/
theorem Machine.State.window_code (s : Machine.State) (w : Nat) :
    codeOfBits (s.window w) = ∑ j ∈ Finset.range w, (s.inBit (s.bitPos.toNat + j)).toNat * 2 ^ (w - 1 - j) :=
  codeOfBits_map_range _ w

end Sys2Proof
end

