-- ==== Sys2Proof/Laws/Sparse.lean ====
section
/-! SUPPORT. The laws of the canonical storage: a read after a write, and that every operation keeps the form. -/

namespace Sys2Proof.Machine

section Sparse

variable {α : Type} [DecidableEq α] {d : Nat → α}

theorem Sparse.wfFrom_mono {lo lo' : Nat} {m : List (Nat × α)} (h : lo' ≤ lo) (hm : Sparse.wfFrom d lo m = true) :
    Sparse.wfFrom d lo' m = true := by
  cases m with
  | nil => rfl
  | cons e t =>
    simp only [Sparse.wfFrom, Bool.and_eq_true, decide_eq_true_eq] at hm ⊢
    exact ⟨⟨h.trans hm.1.1, hm.1.2⟩, hm.2⟩

/-- A key below the lowest a canonical list may hold reads as unlisted. -/
theorem Sparse.look_below {lo k : Nat} {m : List (Nat × α)} (hm : Sparse.wfFrom d lo m = true) (hk : k < lo) :
    Sparse.look d m k = d k := by
  induction m generalizing lo with
  | nil => rfl
  | cons e t ih =>
    simp only [Sparse.wfFrom, Bool.and_eq_true, decide_eq_true_eq] at hm
    have hne : k ≠ e.1 := by omega
    simp only [Sparse.look, if_neg hne]
    exact ih hm.2 (by omega)

theorem Sparse.look_put_other {k k' : Nat} {m : List (Nat × α)} {v : α} (h : k' ≠ k) :
    Sparse.look d (Sparse.put d m k v) k' = Sparse.look d m k' := by
  induction m with
  | nil =>
    simp only [Sparse.put]
    split <;> simp [Sparse.look, h]
  | cons e t ih =>
    simp only [Sparse.put]
    split
    · split
      · rfl
      · simp only [Sparse.look, if_neg h]
    · split
      · next hk =>
        subst hk
        split <;> simp [Sparse.look, h]
      · simp only [Sparse.look, ih]

theorem Sparse.look_put_same_from {lo k : Nat} {m : List (Nat × α)} {v : α} (hm : Sparse.wfFrom d lo m = true) :
    Sparse.look d (Sparse.put d m k v) k = v := by
  induction m generalizing lo with
  | nil =>
    simp only [Sparse.put]
    split
    · next h => simp [Sparse.look, h]
    · simp [Sparse.look]
  | cons e t ih =>
    simp only [Sparse.wfFrom, Bool.and_eq_true, decide_eq_true_eq] at hm
    simp only [Sparse.put]
    split
    · next hlt =>
      split
      · next hv =>
        have hne : k ≠ e.1 := by omega
        simp only [Sparse.look, if_neg hne]
        rw [hv]
        exact Sparse.look_below hm.2 (by omega)
      · simp [Sparse.look]
    · split
      · next hk =>
        split
        · next hv =>
          rw [hv]
          exact Sparse.look_below hm.2 (by omega)
        · simp [Sparse.look]
      · next hk => simp only [Sparse.look, if_neg hk]; exact ih hm.2

theorem Sparse.wfFrom_put {lo k : Nat} {m : List (Nat × α)} {v : α} (hm : Sparse.wfFrom d lo m = true) (hk : lo ≤ k) :
    Sparse.wfFrom d lo (Sparse.put d m k v) = true := by
  induction m generalizing lo with
  | nil =>
    simp only [Sparse.put]
    split
    · rfl
    · next h => simp [Sparse.wfFrom, h, hk]
  | cons e t ih =>
    simp only [Sparse.wfFrom, Bool.and_eq_true, decide_eq_true_eq] at hm
    simp only [Sparse.put]
    split
    · next hlt =>
      split
      · simp only [Sparse.wfFrom, Bool.and_eq_true, decide_eq_true_eq]; exact hm
      · next hv =>
        simp only [Sparse.wfFrom, Bool.and_eq_true, decide_eq_true_eq]
        exact ⟨⟨hk, hv⟩, ⟨hlt, hm.1.2⟩, hm.2⟩
    · split
      · next hke =>
        split
        · exact Sparse.wfFrom_mono (by omega) hm.2
        · next hv =>
          simp only [Sparse.wfFrom, Bool.and_eq_true, decide_eq_true_eq]
          exact ⟨⟨hk, hv⟩, by rw [hke]; exact hm.2⟩
      · next hke =>
        simp only [Sparse.wfFrom, Bool.and_eq_true, decide_eq_true_eq]
        exact ⟨hm.1, ih hm.2 (by omega)⟩

theorem Sparse.wfFrom_filter {lo : Nat} {m : List (Nat × α)} (p : Nat × α → Bool)
    (hm : Sparse.wfFrom d lo m = true) : Sparse.wfFrom d lo (m.filter p) = true := by
  induction m generalizing lo with
  | nil => rfl
  | cons e t ih =>
    simp only [Sparse.wfFrom, Bool.and_eq_true, decide_eq_true_eq] at hm
    simp only [List.filter_cons]
    split
    · simp only [Sparse.wfFrom, Bool.and_eq_true, decide_eq_true_eq]
      exact ⟨hm.1, ih hm.2⟩
    · exact Sparse.wfFrom_mono (by omega) (ih hm.2)

omit [DecidableEq α] in
theorem Sparse.look_filter_in {k : Nat} {m : List (Nat × α)} (p : Nat × α → Bool) (h : ∀ v, p (k, v) = true) :
    Sparse.look d (m.filter p) k = Sparse.look d m k := by
  induction m with
  | nil => rfl
  | cons e t ih =>
    simp only [List.filter_cons]
    split
    · simp only [Sparse.look, ih]
    · next hp =>
      have hne : k ≠ e.1 := by rintro rfl; exact hp (h e.2)
      simp only [Sparse.look, if_neg hne, ih]

omit [DecidableEq α] in
theorem Sparse.look_filter_out {k : Nat} {m : List (Nat × α)} (p : Nat × α → Bool) (h : ∀ v, p (k, v) = false) :
    Sparse.look d (m.filter p) k = d k := by
  induction m with
  | nil => rfl
  | cons e t ih =>
    simp only [List.filter_cons]
    split
    · next hp =>
      have hne : k ≠ e.1 := by rintro rfl; exact absurd hp (by simp [h e.2])
      simp only [Sparse.look, if_neg hne, ih]
    · exact ih

end Sparse

/-! ### `IN` and `OUT` -/

theorem Memory.read_write_same {m : List Host.Cell} {a : Nat} {v : Byte} (hm : Memory.wf m = true) :
    Memory.read (Memory.write m a v) a = v := Sparse.look_put_same_from hm

@[simp] theorem Memory.read_write_other {m : List Host.Cell} {a b : Nat} {v : Byte} (h : b ≠ a) :
    Memory.read (Memory.write m a v) b = Memory.read m b := Sparse.look_put_other h

/-- Every write keeps the canonical form. -/
theorem Memory.wf_write {m : List Host.Cell} {a : Nat} {v : Byte} (hm : Memory.wf m = true) :
    Memory.wf (Memory.write m a v) = true := Sparse.wfFrom_put hm (Nat.zero_le a)

/-! ### The Code Table -/

theorem Table.read_write_same {t : List (Nat × Str)} {k : Nat} {v : Str} (ht : Table.wf t = true) :
    Table.read (Table.write t k v) k = v := Sparse.look_put_same_from ht

@[simp] theorem Table.read_write_other {t : List (Nat × Str)} {k j : Nat} {v : Str} (h : j ≠ k) :
    Table.read (Table.write t k v) j = Table.read t j := Sparse.look_put_other h

theorem Table.wf_write {t : List (Nat × Str)} {k : Nat} {v : Str} (ht : Table.wf t = true) :
    Table.wf (Table.write t k v) = true := Sparse.wfFrom_put ht (Nat.zero_le k)

theorem Table.wf_resetFixed {t : List (Nat × Str)} (ht : Table.wf t = true) :
    Table.wf (Table.resetFixed t) = true := Sparse.wfFrom_filter _ ht

/-- `TBL_RESET` writes slots 0..257 (41_code_table.md R130). -/
theorem Table.read_resetFixed_below {t : List (Nat × Str)} {k : Nat} (hk : k < 258) :
    Table.read (Table.resetFixed t) k = Table.unwritten k :=
  Sparse.look_filter_out _ (fun _ => by simp; omega)

/-- `TBL_RESET` leaves slots 258.. as they were (41_code_table.md R130). -/
theorem Table.read_resetFixed_above {t : List (Nat × Str)} {k : Nat} (hk : 258 ≤ k) :
    Table.read (Table.resetFixed t) k = Table.read t k :=
  Sparse.look_filter_in _ (fun _ => by simp; omega)

end Sys2Proof.Machine
end

