-- ==== Sys2Proof/Laws/State.lean ====
section
/-! SUPPORT. What each named update of the state does to each field: one lemma per field and update, so that no
later proof unfolds a record update. -/

namespace Sys2Proof.Machine

/-! ### `State.putIn` -/

@[simp] theorem State.putIn_lMax (s : State) (a : Nat) (b : Byte) : (s.putIn a b).lMax = s.lMax := rfl
@[simp] theorem State.putIn_sppMax (s : State) (a : Nat) (b : Byte) : (s.putIn a b).sppMax = s.sppMax := rfl
@[simp] theorem State.putIn_engState (s : State) (a : Nat) (b : Byte) : (s.putIn a b).engState = s.engState := rfl
@[simp] theorem State.putIn_errKind (s : State) (a : Nat) (b : Byte) : (s.putIn a b).errKind = s.errKind := rfl
@[simp] theorem State.putIn_usePred (s : State) (a : Nat) (b : Byte) : (s.putIn a b).usePred = s.usePred := rfl
@[simp] theorem State.putIn_inLen (s : State) (a : Nat) (b : Byte) : (s.putIn a b).inLen = s.inLen := rfl
@[simp] theorem State.putIn_outCap (s : State) (a : Nat) (b : Byte) : (s.putIn a b).outCap = s.outCap := rfl
@[simp] theorem State.putIn_rowStride (s : State) (a : Nat) (b : Byte) : (s.putIn a b).rowStride = s.rowStride := rfl
@[simp] theorem State.putIn_spp (s : State) (a : Nat) (b : Byte) : (s.putIn a b).spp = s.spp := rfl
@[simp] theorem State.putIn_bitPos (s : State) (a : Nat) (b : Byte) : (s.putIn a b).bitPos = s.bitPos := rfl
@[simp] theorem State.putIn_nextCode (s : State) (a : Nat) (b : Byte) : (s.putIn a b).nextCode = s.nextCode := rfl
@[simp] theorem State.putIn_codeWidth (s : State) (a : Nat) (b : Byte) : (s.putIn a b).codeWidth = s.codeWidth := rfl
@[simp] theorem State.putIn_prev (s : State) (a : Nat) (b : Byte) : (s.putIn a b).prev = s.prev := rfl
@[simp] theorem State.putIn_entry (s : State) (a : Nat) (b : Byte) : (s.putIn a b).entry = s.entry := rfl
@[simp] theorem State.putIn_outPos (s : State) (a : Nat) (b : Byte) : (s.putIn a b).outPos = s.outPos := rfl
@[simp] theorem State.putIn_lane (s : State) (a : Nat) (b : Byte) : (s.putIn a b).lane = s.lane := rfl
@[simp] theorem State.putIn_inMem (s : State) (a : Nat) (b : Byte) : (s.putIn a b).inMem = Memory.write s.inMem a b := rfl
@[simp] theorem State.putIn_outMem (s : State) (a : Nat) (b : Byte) : (s.putIn a b).outMem = s.outMem := rfl
@[simp] theorem State.putIn_outGiven (s : State) (a : Nat) (b : Byte) : (s.putIn a b).outGiven = s.outGiven := rfl
@[simp] theorem State.putIn_overlap (s : State) (a : Nat) (b : Byte) : (s.putIn a b).overlap = s.overlap := rfl
@[simp] theorem State.putIn_refusedMark (s : State) (a : Nat) (b : Byte) : (s.putIn a b).refusedMark = s.refusedMark := rfl
@[simp] theorem State.putIn_script (s : State) (a : Nat) (b : Byte) : (s.putIn a b).script = s.script := rfl
@[simp] theorem State.putIn_hostData (s : State) (a : Nat) (b : Byte) : (s.putIn a b).hostData = s.hostData := rfl
@[simp] theorem State.putIn_draws (s : State) (a : Nat) (b : Byte) : (s.putIn a b).draws = s.draws := rfl

/-! ### `State.giveOut` -/

@[simp] theorem State.giveOut_lMax (s : State) (n : Nat) : (s.giveOut n).lMax = s.lMax := rfl
@[simp] theorem State.giveOut_sppMax (s : State) (n : Nat) : (s.giveOut n).sppMax = s.sppMax := rfl
@[simp] theorem State.giveOut_engState (s : State) (n : Nat) : (s.giveOut n).engState = s.engState := rfl
@[simp] theorem State.giveOut_errKind (s : State) (n : Nat) : (s.giveOut n).errKind = s.errKind := rfl
@[simp] theorem State.giveOut_usePred (s : State) (n : Nat) : (s.giveOut n).usePred = s.usePred := rfl
@[simp] theorem State.giveOut_inLen (s : State) (n : Nat) : (s.giveOut n).inLen = s.inLen := rfl
@[simp] theorem State.giveOut_outCap (s : State) (n : Nat) : (s.giveOut n).outCap = s.outCap := rfl
@[simp] theorem State.giveOut_rowStride (s : State) (n : Nat) : (s.giveOut n).rowStride = s.rowStride := rfl
@[simp] theorem State.giveOut_spp (s : State) (n : Nat) : (s.giveOut n).spp = s.spp := rfl
@[simp] theorem State.giveOut_bitPos (s : State) (n : Nat) : (s.giveOut n).bitPos = s.bitPos := rfl
@[simp] theorem State.giveOut_nextCode (s : State) (n : Nat) : (s.giveOut n).nextCode = s.nextCode := rfl
@[simp] theorem State.giveOut_codeWidth (s : State) (n : Nat) : (s.giveOut n).codeWidth = s.codeWidth := rfl
@[simp] theorem State.giveOut_prev (s : State) (n : Nat) : (s.giveOut n).prev = s.prev := rfl
@[simp] theorem State.giveOut_entry (s : State) (n : Nat) : (s.giveOut n).entry = s.entry := rfl
@[simp] theorem State.giveOut_outPos (s : State) (n : Nat) : (s.giveOut n).outPos = s.outPos := rfl
@[simp] theorem State.giveOut_lane (s : State) (n : Nat) : (s.giveOut n).lane = s.lane := rfl
@[simp] theorem State.giveOut_inMem (s : State) (n : Nat) : (s.giveOut n).inMem = s.inMem := rfl
@[simp] theorem State.giveOut_outMem (s : State) (n : Nat) : (s.giveOut n).outMem = s.outMem := rfl
@[simp] theorem State.giveOut_outGiven (s : State) (n : Nat) : (s.giveOut n).outGiven = max s.outGiven n := rfl
@[simp] theorem State.giveOut_overlap (s : State) (n : Nat) : (s.giveOut n).overlap = s.overlap := rfl
@[simp] theorem State.giveOut_refusedMark (s : State) (n : Nat) : (s.giveOut n).refusedMark = s.refusedMark := rfl
@[simp] theorem State.giveOut_script (s : State) (n : Nat) : (s.giveOut n).script = s.script := rfl
@[simp] theorem State.giveOut_hostData (s : State) (n : Nat) : (s.giveOut n).hostData = s.hostData := rfl
@[simp] theorem State.giveOut_draws (s : State) (n : Nat) : (s.giveOut n).draws = s.draws := rfl

/-! ### `State.putOut` -/

@[simp] theorem State.putOut_lMax (s : State) (a : Nat) (b : Byte) : (s.putOut a b).lMax = s.lMax := rfl
@[simp] theorem State.putOut_sppMax (s : State) (a : Nat) (b : Byte) : (s.putOut a b).sppMax = s.sppMax := rfl
@[simp] theorem State.putOut_engState (s : State) (a : Nat) (b : Byte) : (s.putOut a b).engState = s.engState := rfl
@[simp] theorem State.putOut_errKind (s : State) (a : Nat) (b : Byte) : (s.putOut a b).errKind = s.errKind := rfl
@[simp] theorem State.putOut_usePred (s : State) (a : Nat) (b : Byte) : (s.putOut a b).usePred = s.usePred := rfl
@[simp] theorem State.putOut_inLen (s : State) (a : Nat) (b : Byte) : (s.putOut a b).inLen = s.inLen := rfl
@[simp] theorem State.putOut_outCap (s : State) (a : Nat) (b : Byte) : (s.putOut a b).outCap = s.outCap := rfl
@[simp] theorem State.putOut_rowStride (s : State) (a : Nat) (b : Byte) : (s.putOut a b).rowStride = s.rowStride := rfl
@[simp] theorem State.putOut_spp (s : State) (a : Nat) (b : Byte) : (s.putOut a b).spp = s.spp := rfl
@[simp] theorem State.putOut_bitPos (s : State) (a : Nat) (b : Byte) : (s.putOut a b).bitPos = s.bitPos := rfl
@[simp] theorem State.putOut_nextCode (s : State) (a : Nat) (b : Byte) : (s.putOut a b).nextCode = s.nextCode := rfl
@[simp] theorem State.putOut_codeWidth (s : State) (a : Nat) (b : Byte) : (s.putOut a b).codeWidth = s.codeWidth := rfl
@[simp] theorem State.putOut_prev (s : State) (a : Nat) (b : Byte) : (s.putOut a b).prev = s.prev := rfl
@[simp] theorem State.putOut_entry (s : State) (a : Nat) (b : Byte) : (s.putOut a b).entry = s.entry := rfl
@[simp] theorem State.putOut_outPos (s : State) (a : Nat) (b : Byte) : (s.putOut a b).outPos = s.outPos := rfl
@[simp] theorem State.putOut_lane (s : State) (a : Nat) (b : Byte) : (s.putOut a b).lane = s.lane := rfl
@[simp] theorem State.putOut_inMem (s : State) (a : Nat) (b : Byte) : (s.putOut a b).inMem = s.inMem := rfl
@[simp] theorem State.putOut_outMem (s : State) (a : Nat) (b : Byte) : (s.putOut a b).outMem = Memory.write s.outMem a b := rfl
@[simp] theorem State.putOut_outGiven (s : State) (a : Nat) (b : Byte) : (s.putOut a b).outGiven = max s.outGiven (a + 1) := rfl
@[simp] theorem State.putOut_overlap (s : State) (a : Nat) (b : Byte) : (s.putOut a b).overlap = s.overlap := rfl
@[simp] theorem State.putOut_refusedMark (s : State) (a : Nat) (b : Byte) : (s.putOut a b).refusedMark = s.refusedMark := rfl
@[simp] theorem State.putOut_script (s : State) (a : Nat) (b : Byte) : (s.putOut a b).script = s.script := rfl
@[simp] theorem State.putOut_hostData (s : State) (a : Nat) (b : Byte) : (s.putOut a b).hostData = s.hostData := rfl
@[simp] theorem State.putOut_draws (s : State) (a : Nat) (b : Byte) : (s.putOut a b).draws = s.draws := rfl

/-! ### `State.raise` -/

@[simp] theorem State.raise_lMax (s : State) (e : ErrKind) : (s.raise e).lMax = s.lMax := rfl
@[simp] theorem State.raise_sppMax (s : State) (e : ErrKind) : (s.raise e).sppMax = s.sppMax := rfl
@[simp] theorem State.raise_engState (s : State) (e : ErrKind) : (s.raise e).engState = .failed := rfl
@[simp] theorem State.raise_errKind (s : State) (e : ErrKind) : (s.raise e).errKind = e := rfl
@[simp] theorem State.raise_usePred (s : State) (e : ErrKind) : (s.raise e).usePred = s.usePred := rfl
@[simp] theorem State.raise_inLen (s : State) (e : ErrKind) : (s.raise e).inLen = s.inLen := rfl
@[simp] theorem State.raise_outCap (s : State) (e : ErrKind) : (s.raise e).outCap = s.outCap := rfl
@[simp] theorem State.raise_rowStride (s : State) (e : ErrKind) : (s.raise e).rowStride = s.rowStride := rfl
@[simp] theorem State.raise_spp (s : State) (e : ErrKind) : (s.raise e).spp = s.spp := rfl
@[simp] theorem State.raise_bitPos (s : State) (e : ErrKind) : (s.raise e).bitPos = s.bitPos := rfl
@[simp] theorem State.raise_nextCode (s : State) (e : ErrKind) : (s.raise e).nextCode = s.nextCode := rfl
@[simp] theorem State.raise_codeWidth (s : State) (e : ErrKind) : (s.raise e).codeWidth = s.codeWidth := rfl
@[simp] theorem State.raise_prev (s : State) (e : ErrKind) : (s.raise e).prev = s.prev := rfl
@[simp] theorem State.raise_entry (s : State) (e : ErrKind) : (s.raise e).entry = s.entry := rfl
@[simp] theorem State.raise_outPos (s : State) (e : ErrKind) : (s.raise e).outPos = s.outPos := rfl
@[simp] theorem State.raise_lane (s : State) (e : ErrKind) : (s.raise e).lane = s.lane := rfl
@[simp] theorem State.raise_inMem (s : State) (e : ErrKind) : (s.raise e).inMem = s.inMem := rfl
@[simp] theorem State.raise_outMem (s : State) (e : ErrKind) : (s.raise e).outMem = s.outMem := rfl
@[simp] theorem State.raise_outGiven (s : State) (e : ErrKind) : (s.raise e).outGiven = s.outGiven := rfl
@[simp] theorem State.raise_overlap (s : State) (e : ErrKind) : (s.raise e).overlap = s.overlap := rfl
@[simp] theorem State.raise_refusedMark (s : State) (e : ErrKind) : (s.raise e).refusedMark = s.refusedMark := rfl
@[simp] theorem State.raise_script (s : State) (e : ErrKind) : (s.raise e).script = s.script := rfl
@[simp] theorem State.raise_hostData (s : State) (e : ErrKind) : (s.raise e).hostData = s.hostData := rfl
@[simp] theorem State.raise_draws (s : State) (e : ErrKind) : (s.raise e).draws = s.draws := rfl

/-! ### `State.advance` -/

@[simp] theorem State.advance_lMax (s : State) (w : Nat) : (s.advance w).lMax = s.lMax := rfl
@[simp] theorem State.advance_sppMax (s : State) (w : Nat) : (s.advance w).sppMax = s.sppMax := rfl
@[simp] theorem State.advance_engState (s : State) (w : Nat) : (s.advance w).engState = s.engState := rfl
@[simp] theorem State.advance_errKind (s : State) (w : Nat) : (s.advance w).errKind = s.errKind := rfl
@[simp] theorem State.advance_usePred (s : State) (w : Nat) : (s.advance w).usePred = s.usePred := rfl
@[simp] theorem State.advance_inLen (s : State) (w : Nat) : (s.advance w).inLen = s.inLen := rfl
@[simp] theorem State.advance_outCap (s : State) (w : Nat) : (s.advance w).outCap = s.outCap := rfl
@[simp] theorem State.advance_rowStride (s : State) (w : Nat) : (s.advance w).rowStride = s.rowStride := rfl
@[simp] theorem State.advance_spp (s : State) (w : Nat) : (s.advance w).spp = s.spp := rfl
@[simp] theorem State.advance_bitPos (s : State) (w : Nat) : (s.advance w).bitPos = BitVec.ofNat 35 (s.bitPos.toNat + w) := rfl
@[simp] theorem State.advance_nextCode (s : State) (w : Nat) : (s.advance w).nextCode = s.nextCode := rfl
@[simp] theorem State.advance_codeWidth (s : State) (w : Nat) : (s.advance w).codeWidth = s.codeWidth := rfl
@[simp] theorem State.advance_prev (s : State) (w : Nat) : (s.advance w).prev = s.prev := rfl
@[simp] theorem State.advance_entry (s : State) (w : Nat) : (s.advance w).entry = s.entry := rfl
@[simp] theorem State.advance_outPos (s : State) (w : Nat) : (s.advance w).outPos = s.outPos := rfl
@[simp] theorem State.advance_lane (s : State) (w : Nat) : (s.advance w).lane = s.lane := rfl
@[simp] theorem State.advance_inMem (s : State) (w : Nat) : (s.advance w).inMem = s.inMem := rfl
@[simp] theorem State.advance_outMem (s : State) (w : Nat) : (s.advance w).outMem = s.outMem := rfl
@[simp] theorem State.advance_outGiven (s : State) (w : Nat) : (s.advance w).outGiven = s.outGiven := rfl
@[simp] theorem State.advance_overlap (s : State) (w : Nat) : (s.advance w).overlap = s.overlap := rfl
@[simp] theorem State.advance_refusedMark (s : State) (w : Nat) : (s.advance w).refusedMark = s.refusedMark := rfl
@[simp] theorem State.advance_script (s : State) (w : Nat) : (s.advance w).script = s.script := rfl
@[simp] theorem State.advance_hostData (s : State) (w : Nat) : (s.advance w).hostData = s.hostData := rfl
@[simp] theorem State.advance_draws (s : State) (w : Nat) : (s.advance w).draws = s.draws := rfl

/-! ### `State.tblReset` -/

@[simp] theorem State.tblReset_lMax (s : State) : s.tblReset.lMax = s.lMax := rfl
@[simp] theorem State.tblReset_sppMax (s : State) : s.tblReset.sppMax = s.sppMax := rfl
@[simp] theorem State.tblReset_engState (s : State) : s.tblReset.engState = s.engState := rfl
@[simp] theorem State.tblReset_errKind (s : State) : s.tblReset.errKind = s.errKind := rfl
@[simp] theorem State.tblReset_usePred (s : State) : s.tblReset.usePred = s.usePred := rfl
@[simp] theorem State.tblReset_inLen (s : State) : s.tblReset.inLen = s.inLen := rfl
@[simp] theorem State.tblReset_outCap (s : State) : s.tblReset.outCap = s.outCap := rfl
@[simp] theorem State.tblReset_rowStride (s : State) : s.tblReset.rowStride = s.rowStride := rfl
@[simp] theorem State.tblReset_spp (s : State) : s.tblReset.spp = s.spp := rfl
@[simp] theorem State.tblReset_bitPos (s : State) : s.tblReset.bitPos = s.bitPos := rfl
@[simp] theorem State.tblReset_nextCode (s : State) : s.tblReset.nextCode = 258#12 := rfl
@[simp] theorem State.tblReset_codeWidth (s : State) : s.tblReset.codeWidth = 9#4 := rfl
@[simp] theorem State.tblReset_prev (s : State) : s.tblReset.prev = s.prev := rfl
@[simp] theorem State.tblReset_entry (s : State) : s.tblReset.entry = Table.resetFixed s.entry := rfl
@[simp] theorem State.tblReset_outPos (s : State) : s.tblReset.outPos = s.outPos := rfl
@[simp] theorem State.tblReset_lane (s : State) : s.tblReset.lane = s.lane := rfl
@[simp] theorem State.tblReset_inMem (s : State) : s.tblReset.inMem = s.inMem := rfl
@[simp] theorem State.tblReset_outMem (s : State) : s.tblReset.outMem = s.outMem := rfl
@[simp] theorem State.tblReset_outGiven (s : State) : s.tblReset.outGiven = s.outGiven := rfl
@[simp] theorem State.tblReset_overlap (s : State) : s.tblReset.overlap = s.overlap := rfl
@[simp] theorem State.tblReset_refusedMark (s : State) : s.tblReset.refusedMark = s.refusedMark := rfl
@[simp] theorem State.tblReset_script (s : State) : s.tblReset.script = s.script := rfl
@[simp] theorem State.tblReset_hostData (s : State) : s.tblReset.hostData = s.hostData := rfl
@[simp] theorem State.tblReset_draws (s : State) : s.tblReset.draws = s.draws := rfl

/-! ### `State.emitByte` -/

@[simp] theorem State.emitByte_lMax (s : State) (raw : Byte) : (s.emitByte raw).lMax = s.lMax := rfl
@[simp] theorem State.emitByte_sppMax (s : State) (raw : Byte) : (s.emitByte raw).sppMax = s.sppMax := rfl
@[simp] theorem State.emitByte_engState (s : State) (raw : Byte) : (s.emitByte raw).engState = s.engState := rfl
@[simp] theorem State.emitByte_errKind (s : State) (raw : Byte) : (s.emitByte raw).errKind = s.errKind := rfl
@[simp] theorem State.emitByte_usePred (s : State) (raw : Byte) : (s.emitByte raw).usePred = s.usePred := rfl
@[simp] theorem State.emitByte_inLen (s : State) (raw : Byte) : (s.emitByte raw).inLen = s.inLen := rfl
@[simp] theorem State.emitByte_outCap (s : State) (raw : Byte) : (s.emitByte raw).outCap = s.outCap := rfl
@[simp] theorem State.emitByte_rowStride (s : State) (raw : Byte) : (s.emitByte raw).rowStride = s.rowStride := rfl
@[simp] theorem State.emitByte_spp (s : State) (raw : Byte) : (s.emitByte raw).spp = s.spp := rfl
@[simp] theorem State.emitByte_bitPos (s : State) (raw : Byte) : (s.emitByte raw).bitPos = s.bitPos := rfl
@[simp] theorem State.emitByte_nextCode (s : State) (raw : Byte) : (s.emitByte raw).nextCode = s.nextCode := rfl
@[simp] theorem State.emitByte_codeWidth (s : State) (raw : Byte) : (s.emitByte raw).codeWidth = s.codeWidth := rfl
@[simp] theorem State.emitByte_prev (s : State) (raw : Byte) : (s.emitByte raw).prev = s.prev := rfl
@[simp] theorem State.emitByte_entry (s : State) (raw : Byte) : (s.emitByte raw).entry = s.entry := rfl
@[simp] theorem State.emitByte_outPos (s : State) (raw : Byte) : (s.emitByte raw).outPos = BitVec.ofNat 32 (s.outPos.toNat + 1) := rfl
@[simp] theorem State.emitByte_lane (s : State) (raw : Byte) : (s.emitByte raw).lane = (s.reconstruct raw).2 := rfl
@[simp] theorem State.emitByte_inMem (s : State) (raw : Byte) : (s.emitByte raw).inMem = s.inMem := rfl
@[simp] theorem State.emitByte_outMem (s : State) (raw : Byte) : (s.emitByte raw).outMem = Memory.write s.outMem s.outPos.toNat (s.reconstruct raw).1 := rfl
@[simp] theorem State.emitByte_outGiven (s : State) (raw : Byte) : (s.emitByte raw).outGiven = s.outGiven := rfl
@[simp] theorem State.emitByte_overlap (s : State) (raw : Byte) : (s.emitByte raw).overlap = s.overlap := rfl
@[simp] theorem State.emitByte_refusedMark (s : State) (raw : Byte) : (s.emitByte raw).refusedMark = s.refusedMark := rfl
@[simp] theorem State.emitByte_script (s : State) (raw : Byte) : (s.emitByte raw).script = s.script := rfl
@[simp] theorem State.emitByte_hostData (s : State) (raw : Byte) : (s.emitByte raw).hostData = s.hostData := rfl
@[simp] theorem State.emitByte_draws (s : State) (raw : Byte) : (s.emitByte raw).draws = s.draws := rfl

/-! ### `State.remember` -/

@[simp] theorem State.remember_lMax (s : State) (cur : Str) : (s.remember cur).lMax = s.lMax := rfl
@[simp] theorem State.remember_sppMax (s : State) (cur : Str) : (s.remember cur).sppMax = s.sppMax := rfl
@[simp] theorem State.remember_engState (s : State) (cur : Str) : (s.remember cur).engState = .running := rfl
@[simp] theorem State.remember_errKind (s : State) (cur : Str) : (s.remember cur).errKind = s.errKind := rfl
@[simp] theorem State.remember_usePred (s : State) (cur : Str) : (s.remember cur).usePred = s.usePred := rfl
@[simp] theorem State.remember_inLen (s : State) (cur : Str) : (s.remember cur).inLen = s.inLen := rfl
@[simp] theorem State.remember_outCap (s : State) (cur : Str) : (s.remember cur).outCap = s.outCap := rfl
@[simp] theorem State.remember_rowStride (s : State) (cur : Str) : (s.remember cur).rowStride = s.rowStride := rfl
@[simp] theorem State.remember_spp (s : State) (cur : Str) : (s.remember cur).spp = s.spp := rfl
@[simp] theorem State.remember_bitPos (s : State) (cur : Str) : (s.remember cur).bitPos = s.bitPos := rfl
@[simp] theorem State.remember_nextCode (s : State) (cur : Str) : (s.remember cur).nextCode = s.nextCode := rfl
@[simp] theorem State.remember_codeWidth (s : State) (cur : Str) : (s.remember cur).codeWidth = s.codeWidth := rfl
@[simp] theorem State.remember_prev (s : State) (cur : Str) : (s.remember cur).prev = cur := rfl
@[simp] theorem State.remember_entry (s : State) (cur : Str) : (s.remember cur).entry = s.entry := rfl
@[simp] theorem State.remember_outPos (s : State) (cur : Str) : (s.remember cur).outPos = s.outPos := rfl
@[simp] theorem State.remember_lane (s : State) (cur : Str) : (s.remember cur).lane = s.lane := rfl
@[simp] theorem State.remember_inMem (s : State) (cur : Str) : (s.remember cur).inMem = s.inMem := rfl
@[simp] theorem State.remember_outMem (s : State) (cur : Str) : (s.remember cur).outMem = s.outMem := rfl
@[simp] theorem State.remember_outGiven (s : State) (cur : Str) : (s.remember cur).outGiven = s.outGiven := rfl
@[simp] theorem State.remember_overlap (s : State) (cur : Str) : (s.remember cur).overlap = s.overlap := rfl
@[simp] theorem State.remember_refusedMark (s : State) (cur : Str) : (s.remember cur).refusedMark = s.refusedMark := rfl
@[simp] theorem State.remember_script (s : State) (cur : Str) : (s.remember cur).script = s.script := rfl
@[simp] theorem State.remember_hostData (s : State) (cur : Str) : (s.remember cur).hostData = s.hostData := rfl
@[simp] theorem State.remember_draws (s : State) (cur : Str) : (s.remember cur).draws = s.draws := rfl

/-! ### `State.widen` -/

@[simp] theorem State.widen_lMax (s : State) : s.widen.lMax = s.lMax := rfl
@[simp] theorem State.widen_sppMax (s : State) : s.widen.sppMax = s.sppMax := rfl
@[simp] theorem State.widen_engState (s : State) : s.widen.engState = s.engState := rfl
@[simp] theorem State.widen_errKind (s : State) : s.widen.errKind = s.errKind := rfl
@[simp] theorem State.widen_usePred (s : State) : s.widen.usePred = s.usePred := rfl
@[simp] theorem State.widen_inLen (s : State) : s.widen.inLen = s.inLen := rfl
@[simp] theorem State.widen_outCap (s : State) : s.widen.outCap = s.outCap := rfl
@[simp] theorem State.widen_rowStride (s : State) : s.widen.rowStride = s.rowStride := rfl
@[simp] theorem State.widen_spp (s : State) : s.widen.spp = s.spp := rfl
@[simp] theorem State.widen_bitPos (s : State) : s.widen.bitPos = s.bitPos := rfl
@[simp] theorem State.widen_nextCode (s : State) : s.widen.nextCode = s.nextCode := rfl
@[simp] theorem State.widen_codeWidth (s : State) : s.widen.codeWidth = BitVec.ofNat 4 (bumpWidth s.nextCode.toNat s.codeWidth.toNat) := rfl
@[simp] theorem State.widen_prev (s : State) : s.widen.prev = s.prev := rfl
@[simp] theorem State.widen_entry (s : State) : s.widen.entry = s.entry := rfl
@[simp] theorem State.widen_outPos (s : State) : s.widen.outPos = s.outPos := rfl
@[simp] theorem State.widen_lane (s : State) : s.widen.lane = s.lane := rfl
@[simp] theorem State.widen_inMem (s : State) : s.widen.inMem = s.inMem := rfl
@[simp] theorem State.widen_outMem (s : State) : s.widen.outMem = s.outMem := rfl
@[simp] theorem State.widen_outGiven (s : State) : s.widen.outGiven = s.outGiven := rfl
@[simp] theorem State.widen_overlap (s : State) : s.widen.overlap = s.overlap := rfl
@[simp] theorem State.widen_refusedMark (s : State) : s.widen.refusedMark = s.refusedMark := rfl
@[simp] theorem State.widen_script (s : State) : s.widen.script = s.script := rfl
@[simp] theorem State.widen_hostData (s : State) : s.widen.hostData = s.hostData := rfl
@[simp] theorem State.widen_draws (s : State) : s.widen.draws = s.draws := rfl

/-! ### `State.setUsePred` -/

@[simp] theorem State.setUsePred_lMax (s : State) (v : Word32) : (s.setUsePred v).lMax = s.lMax := rfl
@[simp] theorem State.setUsePred_sppMax (s : State) (v : Word32) : (s.setUsePred v).sppMax = s.sppMax := rfl
@[simp] theorem State.setUsePred_engState (s : State) (v : Word32) : (s.setUsePred v).engState = s.engState := rfl
@[simp] theorem State.setUsePred_errKind (s : State) (v : Word32) : (s.setUsePred v).errKind = s.errKind := rfl
@[simp] theorem State.setUsePred_usePred (s : State) (v : Word32) : (s.setUsePred v).usePred = v.getLsbD 1 := rfl
@[simp] theorem State.setUsePred_inLen (s : State) (v : Word32) : (s.setUsePred v).inLen = s.inLen := rfl
@[simp] theorem State.setUsePred_outCap (s : State) (v : Word32) : (s.setUsePred v).outCap = s.outCap := rfl
@[simp] theorem State.setUsePred_rowStride (s : State) (v : Word32) : (s.setUsePred v).rowStride = s.rowStride := rfl
@[simp] theorem State.setUsePred_spp (s : State) (v : Word32) : (s.setUsePred v).spp = s.spp := rfl
@[simp] theorem State.setUsePred_bitPos (s : State) (v : Word32) : (s.setUsePred v).bitPos = s.bitPos := rfl
@[simp] theorem State.setUsePred_nextCode (s : State) (v : Word32) : (s.setUsePred v).nextCode = s.nextCode := rfl
@[simp] theorem State.setUsePred_codeWidth (s : State) (v : Word32) : (s.setUsePred v).codeWidth = s.codeWidth := rfl
@[simp] theorem State.setUsePred_prev (s : State) (v : Word32) : (s.setUsePred v).prev = s.prev := rfl
@[simp] theorem State.setUsePred_entry (s : State) (v : Word32) : (s.setUsePred v).entry = s.entry := rfl
@[simp] theorem State.setUsePred_outPos (s : State) (v : Word32) : (s.setUsePred v).outPos = s.outPos := rfl
@[simp] theorem State.setUsePred_lane (s : State) (v : Word32) : (s.setUsePred v).lane = s.lane := rfl
@[simp] theorem State.setUsePred_inMem (s : State) (v : Word32) : (s.setUsePred v).inMem = s.inMem := rfl
@[simp] theorem State.setUsePred_outMem (s : State) (v : Word32) : (s.setUsePred v).outMem = s.outMem := rfl
@[simp] theorem State.setUsePred_outGiven (s : State) (v : Word32) : (s.setUsePred v).outGiven = s.outGiven := rfl
@[simp] theorem State.setUsePred_overlap (s : State) (v : Word32) : (s.setUsePred v).overlap = s.overlap := rfl
@[simp] theorem State.setUsePred_refusedMark (s : State) (v : Word32) : (s.setUsePred v).refusedMark = s.refusedMark := rfl
@[simp] theorem State.setUsePred_script (s : State) (v : Word32) : (s.setUsePred v).script = s.script := rfl
@[simp] theorem State.setUsePred_hostData (s : State) (v : Word32) : (s.setUsePred v).hostData = s.hostData := rfl
@[simp] theorem State.setUsePred_draws (s : State) (v : Word32) : (s.setUsePred v).draws = s.draws := rfl

/-! ### `State.startValues` -/

@[simp] theorem State.startValues_lMax (s : State) : s.startValues.lMax = s.lMax := rfl
@[simp] theorem State.startValues_sppMax (s : State) : s.startValues.sppMax = s.sppMax := rfl
@[simp] theorem State.startValues_engState (s : State) : s.startValues.engState = .cleared := rfl
@[simp] theorem State.startValues_errKind (s : State) : s.startValues.errKind = .noError := rfl
@[simp] theorem State.startValues_usePred (s : State) : s.startValues.usePred = s.usePred := rfl
@[simp] theorem State.startValues_inLen (s : State) : s.startValues.inLen = s.inLen := rfl
@[simp] theorem State.startValues_outCap (s : State) : s.startValues.outCap = s.outCap := rfl
@[simp] theorem State.startValues_rowStride (s : State) : s.startValues.rowStride = s.rowStride := rfl
@[simp] theorem State.startValues_spp (s : State) : s.startValues.spp = s.spp := rfl
@[simp] theorem State.startValues_bitPos (s : State) : s.startValues.bitPos = 0#35 := rfl
@[simp] theorem State.startValues_nextCode (s : State) : s.startValues.nextCode = 258#12 := rfl
@[simp] theorem State.startValues_codeWidth (s : State) : s.startValues.codeWidth = 9#4 := rfl
@[simp] theorem State.startValues_prev (s : State) : s.startValues.prev = [] := rfl
@[simp] theorem State.startValues_entry (s : State) : s.startValues.entry = Table.resetFixed s.entry := rfl
@[simp] theorem State.startValues_outPos (s : State) : s.startValues.outPos = 0#32 := rfl
@[simp] theorem State.startValues_lane (s : State) : s.startValues.lane = List.replicate s.sppMax 0#8 := rfl
@[simp] theorem State.startValues_inMem (s : State) : s.startValues.inMem = s.inMem := rfl
@[simp] theorem State.startValues_outMem (s : State) : s.startValues.outMem = s.outMem := rfl
@[simp] theorem State.startValues_outGiven (s : State) : s.startValues.outGiven = s.outGiven := rfl
@[simp] theorem State.startValues_overlap (s : State) : s.startValues.overlap = s.overlap := rfl
@[simp] theorem State.startValues_refusedMark (s : State) : s.startValues.refusedMark = s.refusedMark := rfl
@[simp] theorem State.startValues_script (s : State) : s.startValues.script = s.script := rfl
@[simp] theorem State.startValues_hostData (s : State) : s.startValues.hostData = s.hostData := rfl
@[simp] theorem State.startValues_draws (s : State) : s.startValues.draws = s.draws := rfl

/-! ### `State.refuseCommand` -/

@[simp] theorem State.refuseCommand_lMax (s : State) : s.refuseCommand.lMax = s.lMax := rfl
@[simp] theorem State.refuseCommand_sppMax (s : State) : s.refuseCommand.sppMax = s.sppMax := rfl
@[simp] theorem State.refuseCommand_engState (s : State) : s.refuseCommand.engState = s.engState := rfl
@[simp] theorem State.refuseCommand_errKind (s : State) : s.refuseCommand.errKind = s.errKind := rfl
@[simp] theorem State.refuseCommand_usePred (s : State) : s.refuseCommand.usePred = s.usePred := rfl
@[simp] theorem State.refuseCommand_inLen (s : State) : s.refuseCommand.inLen = s.inLen := rfl
@[simp] theorem State.refuseCommand_outCap (s : State) : s.refuseCommand.outCap = s.outCap := rfl
@[simp] theorem State.refuseCommand_rowStride (s : State) : s.refuseCommand.rowStride = s.rowStride := rfl
@[simp] theorem State.refuseCommand_spp (s : State) : s.refuseCommand.spp = s.spp := rfl
@[simp] theorem State.refuseCommand_bitPos (s : State) : s.refuseCommand.bitPos = s.bitPos := rfl
@[simp] theorem State.refuseCommand_nextCode (s : State) : s.refuseCommand.nextCode = s.nextCode := rfl
@[simp] theorem State.refuseCommand_codeWidth (s : State) : s.refuseCommand.codeWidth = s.codeWidth := rfl
@[simp] theorem State.refuseCommand_prev (s : State) : s.refuseCommand.prev = s.prev := rfl
@[simp] theorem State.refuseCommand_entry (s : State) : s.refuseCommand.entry = s.entry := rfl
@[simp] theorem State.refuseCommand_outPos (s : State) : s.refuseCommand.outPos = s.outPos := rfl
@[simp] theorem State.refuseCommand_lane (s : State) : s.refuseCommand.lane = s.lane := rfl
@[simp] theorem State.refuseCommand_inMem (s : State) : s.refuseCommand.inMem = s.inMem := rfl
@[simp] theorem State.refuseCommand_outMem (s : State) : s.refuseCommand.outMem = s.outMem := rfl
@[simp] theorem State.refuseCommand_outGiven (s : State) : s.refuseCommand.outGiven = s.outGiven := rfl
@[simp] theorem State.refuseCommand_overlap (s : State) : s.refuseCommand.overlap = s.overlap := rfl
@[simp] theorem State.refuseCommand_refusedMark (s : State) : s.refuseCommand.refusedMark = true := rfl
@[simp] theorem State.refuseCommand_script (s : State) : s.refuseCommand.script = s.script := rfl
@[simp] theorem State.refuseCommand_hostData (s : State) : s.refuseCommand.hostData = s.hostData := rfl
@[simp] theorem State.refuseCommand_draws (s : State) : s.refuseCommand.draws = s.draws := rfl

/-! ### `State.clearCommand` -/

@[simp] theorem State.clearCommand_lMax (s : State) : s.clearCommand.lMax = s.lMax := rfl
@[simp] theorem State.clearCommand_sppMax (s : State) : s.clearCommand.sppMax = s.sppMax := rfl
@[simp] theorem State.clearCommand_engState (s : State) : s.clearCommand.engState = .cleared := rfl
@[simp] theorem State.clearCommand_errKind (s : State) : s.clearCommand.errKind = s.errKind := rfl
@[simp] theorem State.clearCommand_usePred (s : State) : s.clearCommand.usePred = s.usePred := rfl
@[simp] theorem State.clearCommand_inLen (s : State) : s.clearCommand.inLen = s.inLen := rfl
@[simp] theorem State.clearCommand_outCap (s : State) : s.clearCommand.outCap = s.outCap := rfl
@[simp] theorem State.clearCommand_rowStride (s : State) : s.clearCommand.rowStride = s.rowStride := rfl
@[simp] theorem State.clearCommand_spp (s : State) : s.clearCommand.spp = s.spp := rfl
@[simp] theorem State.clearCommand_bitPos (s : State) : s.clearCommand.bitPos = s.bitPos := rfl
@[simp] theorem State.clearCommand_nextCode (s : State) : s.clearCommand.nextCode = 258#12 := rfl
@[simp] theorem State.clearCommand_codeWidth (s : State) : s.clearCommand.codeWidth = 9#4 := rfl
@[simp] theorem State.clearCommand_prev (s : State) : s.clearCommand.prev = [] := rfl
@[simp] theorem State.clearCommand_entry (s : State) : s.clearCommand.entry = Table.resetFixed s.entry := rfl
@[simp] theorem State.clearCommand_outPos (s : State) : s.clearCommand.outPos = s.outPos := rfl
@[simp] theorem State.clearCommand_lane (s : State) : s.clearCommand.lane = s.lane := rfl
@[simp] theorem State.clearCommand_inMem (s : State) : s.clearCommand.inMem = s.inMem := rfl
@[simp] theorem State.clearCommand_outMem (s : State) : s.clearCommand.outMem = s.outMem := rfl
@[simp] theorem State.clearCommand_outGiven (s : State) : s.clearCommand.outGiven = s.outGiven := rfl
@[simp] theorem State.clearCommand_overlap (s : State) : s.clearCommand.overlap = s.overlap := rfl
@[simp] theorem State.clearCommand_refusedMark (s : State) : s.clearCommand.refusedMark = s.refusedMark := rfl
@[simp] theorem State.clearCommand_script (s : State) : s.clearCommand.script = s.script := rfl
@[simp] theorem State.clearCommand_hostData (s : State) : s.clearCommand.hostData = s.hostData := rfl
@[simp] theorem State.clearCommand_draws (s : State) : s.clearCommand.draws = s.draws := rfl

/-! ### `State.storeEntry` -/

@[simp] theorem State.storeEntry_lMax (s : State) (str : Str) : (s.storeEntry str).lMax = s.lMax := rfl
@[simp] theorem State.storeEntry_sppMax (s : State) (str : Str) : (s.storeEntry str).sppMax = s.sppMax := rfl
@[simp] theorem State.storeEntry_engState (s : State) (str : Str) : (s.storeEntry str).engState = s.engState := rfl
@[simp] theorem State.storeEntry_errKind (s : State) (str : Str) : (s.storeEntry str).errKind = s.errKind := rfl
@[simp] theorem State.storeEntry_usePred (s : State) (str : Str) : (s.storeEntry str).usePred = s.usePred := rfl
@[simp] theorem State.storeEntry_inLen (s : State) (str : Str) : (s.storeEntry str).inLen = s.inLen := rfl
@[simp] theorem State.storeEntry_outCap (s : State) (str : Str) : (s.storeEntry str).outCap = s.outCap := rfl
@[simp] theorem State.storeEntry_rowStride (s : State) (str : Str) : (s.storeEntry str).rowStride = s.rowStride := rfl
@[simp] theorem State.storeEntry_spp (s : State) (str : Str) : (s.storeEntry str).spp = s.spp := rfl
@[simp] theorem State.storeEntry_bitPos (s : State) (str : Str) : (s.storeEntry str).bitPos = s.bitPos := rfl
@[simp] theorem State.storeEntry_nextCode (s : State) (str : Str) : (s.storeEntry str).nextCode = BitVec.ofNat 12 (s.nextCode.toNat + 1) := rfl
@[simp] theorem State.storeEntry_codeWidth (s : State) (str : Str) : (s.storeEntry str).codeWidth = s.codeWidth := rfl
@[simp] theorem State.storeEntry_prev (s : State) (str : Str) : (s.storeEntry str).prev = s.prev := rfl
@[simp] theorem State.storeEntry_entry (s : State) (str : Str) : (s.storeEntry str).entry = Table.write s.entry s.nextCode.toNat str := rfl
@[simp] theorem State.storeEntry_outPos (s : State) (str : Str) : (s.storeEntry str).outPos = s.outPos := rfl
@[simp] theorem State.storeEntry_lane (s : State) (str : Str) : (s.storeEntry str).lane = s.lane := rfl
@[simp] theorem State.storeEntry_inMem (s : State) (str : Str) : (s.storeEntry str).inMem = s.inMem := rfl
@[simp] theorem State.storeEntry_outMem (s : State) (str : Str) : (s.storeEntry str).outMem = s.outMem := rfl
@[simp] theorem State.storeEntry_outGiven (s : State) (str : Str) : (s.storeEntry str).outGiven = s.outGiven := rfl
@[simp] theorem State.storeEntry_overlap (s : State) (str : Str) : (s.storeEntry str).overlap = s.overlap := rfl
@[simp] theorem State.storeEntry_refusedMark (s : State) (str : Str) : (s.storeEntry str).refusedMark = s.refusedMark := rfl
@[simp] theorem State.storeEntry_script (s : State) (str : Str) : (s.storeEntry str).script = s.script := rfl
@[simp] theorem State.storeEntry_hostData (s : State) (str : Str) : (s.storeEntry str).hostData = s.hostData := rfl
@[simp] theorem State.storeEntry_draws (s : State) (str : Str) : (s.storeEntry str).draws = s.draws := rfl

/-! ### `State.receive` -/

@[simp] theorem State.receive_lMax (s : State) (v : Word32) : (s.receive v).lMax = s.lMax := rfl
@[simp] theorem State.receive_sppMax (s : State) (v : Word32) : (s.receive v).sppMax = s.sppMax := rfl
@[simp] theorem State.receive_engState (s : State) (v : Word32) : (s.receive v).engState = s.engState := rfl
@[simp] theorem State.receive_errKind (s : State) (v : Word32) : (s.receive v).errKind = s.errKind := rfl
@[simp] theorem State.receive_usePred (s : State) (v : Word32) : (s.receive v).usePred = s.usePred := rfl
@[simp] theorem State.receive_inLen (s : State) (v : Word32) : (s.receive v).inLen = s.inLen := rfl
@[simp] theorem State.receive_outCap (s : State) (v : Word32) : (s.receive v).outCap = s.outCap := rfl
@[simp] theorem State.receive_rowStride (s : State) (v : Word32) : (s.receive v).rowStride = s.rowStride := rfl
@[simp] theorem State.receive_spp (s : State) (v : Word32) : (s.receive v).spp = s.spp := rfl
@[simp] theorem State.receive_bitPos (s : State) (v : Word32) : (s.receive v).bitPos = s.bitPos := rfl
@[simp] theorem State.receive_nextCode (s : State) (v : Word32) : (s.receive v).nextCode = s.nextCode := rfl
@[simp] theorem State.receive_codeWidth (s : State) (v : Word32) : (s.receive v).codeWidth = s.codeWidth := rfl
@[simp] theorem State.receive_prev (s : State) (v : Word32) : (s.receive v).prev = s.prev := rfl
@[simp] theorem State.receive_entry (s : State) (v : Word32) : (s.receive v).entry = s.entry := rfl
@[simp] theorem State.receive_outPos (s : State) (v : Word32) : (s.receive v).outPos = s.outPos := rfl
@[simp] theorem State.receive_lane (s : State) (v : Word32) : (s.receive v).lane = s.lane := rfl
@[simp] theorem State.receive_inMem (s : State) (v : Word32) : (s.receive v).inMem = s.inMem := rfl
@[simp] theorem State.receive_outMem (s : State) (v : Word32) : (s.receive v).outMem = s.outMem := rfl
@[simp] theorem State.receive_outGiven (s : State) (v : Word32) : (s.receive v).outGiven = s.outGiven := rfl
@[simp] theorem State.receive_overlap (s : State) (v : Word32) : (s.receive v).overlap = s.overlap := rfl
@[simp] theorem State.receive_refusedMark (s : State) (v : Word32) : (s.receive v).refusedMark = s.refusedMark := rfl
@[simp] theorem State.receive_script (s : State) (v : Word32) : (s.receive v).script = s.script := rfl
@[simp] theorem State.receive_hostData (s : State) (v : Word32) : (s.receive v).hostData = v := rfl
@[simp] theorem State.receive_draws (s : State) (v : Word32) : (s.receive v).draws = s.draws := rfl

/-! ### `State.receiveDraw` -/

@[simp] theorem State.receiveDraw_lMax (s : State) : s.receiveDraw.lMax = s.lMax := rfl
@[simp] theorem State.receiveDraw_sppMax (s : State) : s.receiveDraw.sppMax = s.sppMax := rfl
@[simp] theorem State.receiveDraw_engState (s : State) : s.receiveDraw.engState = s.engState := rfl
@[simp] theorem State.receiveDraw_errKind (s : State) : s.receiveDraw.errKind = s.errKind := rfl
@[simp] theorem State.receiveDraw_usePred (s : State) : s.receiveDraw.usePred = s.usePred := rfl
@[simp] theorem State.receiveDraw_inLen (s : State) : s.receiveDraw.inLen = s.inLen := rfl
@[simp] theorem State.receiveDraw_outCap (s : State) : s.receiveDraw.outCap = s.outCap := rfl
@[simp] theorem State.receiveDraw_rowStride (s : State) : s.receiveDraw.rowStride = s.rowStride := rfl
@[simp] theorem State.receiveDraw_spp (s : State) : s.receiveDraw.spp = s.spp := rfl
@[simp] theorem State.receiveDraw_bitPos (s : State) : s.receiveDraw.bitPos = s.bitPos := rfl
@[simp] theorem State.receiveDraw_nextCode (s : State) : s.receiveDraw.nextCode = s.nextCode := rfl
@[simp] theorem State.receiveDraw_codeWidth (s : State) : s.receiveDraw.codeWidth = s.codeWidth := rfl
@[simp] theorem State.receiveDraw_prev (s : State) : s.receiveDraw.prev = s.prev := rfl
@[simp] theorem State.receiveDraw_entry (s : State) : s.receiveDraw.entry = s.entry := rfl
@[simp] theorem State.receiveDraw_outPos (s : State) : s.receiveDraw.outPos = s.outPos := rfl
@[simp] theorem State.receiveDraw_lane (s : State) : s.receiveDraw.lane = s.lane := rfl
@[simp] theorem State.receiveDraw_inMem (s : State) : s.receiveDraw.inMem = s.inMem := rfl
@[simp] theorem State.receiveDraw_outMem (s : State) : s.receiveDraw.outMem = s.outMem := rfl
@[simp] theorem State.receiveDraw_outGiven (s : State) : s.receiveDraw.outGiven = s.outGiven := rfl
@[simp] theorem State.receiveDraw_overlap (s : State) : s.receiveDraw.overlap = s.overlap := rfl
@[simp] theorem State.receiveDraw_refusedMark (s : State) : s.receiveDraw.refusedMark = s.refusedMark := rfl
@[simp] theorem State.receiveDraw_script (s : State) : s.receiveDraw.script = s.script := rfl
@[simp] theorem State.receiveDraw_hostData (s : State) : s.receiveDraw.hostData = (Config.freeOutByte s.draws).setWidth 32 := rfl
@[simp] theorem State.receiveDraw_draws (s : State) : s.receiveDraw.draws = s.draws + 1 := rfl

/-! ### `State.declareOverlap` -/

@[simp] theorem State.declareOverlap_lMax (s : State) (b : Bool) : (s.declareOverlap b).lMax = s.lMax := rfl
@[simp] theorem State.declareOverlap_sppMax (s : State) (b : Bool) : (s.declareOverlap b).sppMax = s.sppMax := rfl
@[simp] theorem State.declareOverlap_engState (s : State) (b : Bool) : (s.declareOverlap b).engState = s.engState := rfl
@[simp] theorem State.declareOverlap_errKind (s : State) (b : Bool) : (s.declareOverlap b).errKind = s.errKind := rfl
@[simp] theorem State.declareOverlap_usePred (s : State) (b : Bool) : (s.declareOverlap b).usePred = s.usePred := rfl
@[simp] theorem State.declareOverlap_inLen (s : State) (b : Bool) : (s.declareOverlap b).inLen = s.inLen := rfl
@[simp] theorem State.declareOverlap_outCap (s : State) (b : Bool) : (s.declareOverlap b).outCap = s.outCap := rfl
@[simp] theorem State.declareOverlap_rowStride (s : State) (b : Bool) : (s.declareOverlap b).rowStride = s.rowStride := rfl
@[simp] theorem State.declareOverlap_spp (s : State) (b : Bool) : (s.declareOverlap b).spp = s.spp := rfl
@[simp] theorem State.declareOverlap_bitPos (s : State) (b : Bool) : (s.declareOverlap b).bitPos = s.bitPos := rfl
@[simp] theorem State.declareOverlap_nextCode (s : State) (b : Bool) : (s.declareOverlap b).nextCode = s.nextCode := rfl
@[simp] theorem State.declareOverlap_codeWidth (s : State) (b : Bool) : (s.declareOverlap b).codeWidth = s.codeWidth := rfl
@[simp] theorem State.declareOverlap_prev (s : State) (b : Bool) : (s.declareOverlap b).prev = s.prev := rfl
@[simp] theorem State.declareOverlap_entry (s : State) (b : Bool) : (s.declareOverlap b).entry = s.entry := rfl
@[simp] theorem State.declareOverlap_outPos (s : State) (b : Bool) : (s.declareOverlap b).outPos = s.outPos := rfl
@[simp] theorem State.declareOverlap_lane (s : State) (b : Bool) : (s.declareOverlap b).lane = s.lane := rfl
@[simp] theorem State.declareOverlap_inMem (s : State) (b : Bool) : (s.declareOverlap b).inMem = s.inMem := rfl
@[simp] theorem State.declareOverlap_outMem (s : State) (b : Bool) : (s.declareOverlap b).outMem = s.outMem := rfl
@[simp] theorem State.declareOverlap_outGiven (s : State) (b : Bool) : (s.declareOverlap b).outGiven = s.outGiven := rfl
@[simp] theorem State.declareOverlap_overlap (s : State) (b : Bool) : (s.declareOverlap b).overlap = b := rfl
@[simp] theorem State.declareOverlap_refusedMark (s : State) (b : Bool) : (s.declareOverlap b).refusedMark = s.refusedMark := rfl
@[simp] theorem State.declareOverlap_script (s : State) (b : Bool) : (s.declareOverlap b).script = s.script := rfl
@[simp] theorem State.declareOverlap_hostData (s : State) (b : Bool) : (s.declareOverlap b).hostData = s.hostData := rfl
@[simp] theorem State.declareOverlap_draws (s : State) (b : Bool) : (s.declareOverlap b).draws = s.draws := rfl

end Sys2Proof.Machine
end

