-- ==== Sys2Proof/Laws/Emit.lean ====
section
/-! SUPPORT. Everything `EMIT` can do (43_predictor.md R191): which fields it leaves, where it writes, and what the
lanes hold after it. -/

namespace Sys2Proof.Machine

/-! ### The lane file -/

@[simp] theorem zeroLanes_length (n : Nat) (l : List Byte) : (zeroLanes n l).length = l.length := by
  induction n generalizing l with
  | zero => rfl
  | succ n ih => cases l with
    | nil => rfl
    | cons b t => simp [zeroLanes, ih]

theorem zeroLanes_getD_below {n k : Nat} {l : List Byte} (h : k < n) : (zeroLanes n l).getD k 0#8 = 0#8 := by
  induction n generalizing l k with
  | zero => omega
  | succ n ih => cases l with
    | nil => simp [zeroLanes]
    | cons b t => cases k with
      | zero => simp [zeroLanes]
      | succ k => simpa [zeroLanes] using ih (l := t) (k := k) (by omega)

theorem zeroLanes_getD_above {n k : Nat} {l : List Byte} (h : n ≤ k) : (zeroLanes n l).getD k 0#8 = l.getD k 0#8 := by
  induction n generalizing l k with
  | zero => rfl
  | succ n ih => cases l with
    | nil => simp [zeroLanes]
    | cons b t => cases k with
      | zero => omega
      | succ k => simpa [zeroLanes] using ih (l := t) (k := k) (by omega)

@[simp] theorem predict_length (r p i : Nat) (raw : Byte) (l : List Byte) : (predict r p i raw l).2.length = l.length := by
  simp only [predict]
  split <;> split <;> simp

@[simp] theorem State.reconstruct_length (s : State) (raw : Byte) : (s.reconstruct raw).2.length = s.lane.length := by
  simp only [State.reconstruct]
  split <;> simp

theorem State.reconstruct_plain {s : State} {raw : Byte}
    (h : s.usePred = false ∨ s.outPos.toNat % s.rowStride.toNat < s.spp.toNat) : (s.reconstruct raw).1 = raw := by
  simp only [State.reconstruct, predict]
  split
  · next hp =>
    obtain h | h := h
    · simp [h] at hp
    · simp [h]
  · rfl

theorem State.reconstruct_summed {s : State} {raw : Byte} (hp : s.usePred = true) (hs : 1 ≤ s.spp.toNat)
    (h : s.spp.toNat ≤ s.outPos.toNat % s.rowStride.toNat) :
    (s.reconstruct raw).1 = raw + s.lane.getD (s.outPos.toNat % s.rowStride.toNat % s.spp.toNat) 0#8 := by
  have h0 : s.outPos.toNat % s.rowStride.toNat ≠ 0 := by omega
  have h1 : ¬ s.outPos.toNat % s.rowStride.toNat < s.spp.toNat := by omega
  simp [State.reconstruct, predict, hp, h0, h1]

/-! ### What `EMIT`'s loop leaves -/

section Frame

variable (s : State) (str : Str)

@[simp] theorem State.emitAll_nil : s.emitAll [] = s := rfl

@[simp] theorem State.emitAll_cons (b : Byte) : s.emitAll (b :: str) = (s.emitByte b).emitAll str := rfl

theorem State.emitAll_keeps {β : Type} (f : State → β) (h : ∀ (u : State) (b : Byte), f (u.emitByte b) = f u) :
    f (s.emitAll str) = f s := by
  induction str generalizing s with
  | nil => rfl
  | cons b t ih => rw [State.emitAll_cons, ih, h]

@[simp] theorem State.emitAll_lMax : (s.emitAll str).lMax = s.lMax := s.emitAll_keeps str State.lMax fun _ _ => rfl
@[simp] theorem State.emitAll_sppMax : (s.emitAll str).sppMax = s.sppMax := s.emitAll_keeps str State.sppMax fun _ _ => rfl
@[simp] theorem State.emitAll_engState : (s.emitAll str).engState = s.engState := s.emitAll_keeps str State.engState fun _ _ => rfl
@[simp] theorem State.emitAll_errKind : (s.emitAll str).errKind = s.errKind := s.emitAll_keeps str State.errKind fun _ _ => rfl
@[simp] theorem State.emitAll_usePred : (s.emitAll str).usePred = s.usePred := s.emitAll_keeps str State.usePred fun _ _ => rfl
@[simp] theorem State.emitAll_inLen : (s.emitAll str).inLen = s.inLen := s.emitAll_keeps str State.inLen fun _ _ => rfl
@[simp] theorem State.emitAll_outCap : (s.emitAll str).outCap = s.outCap := s.emitAll_keeps str State.outCap fun _ _ => rfl
@[simp] theorem State.emitAll_rowStride : (s.emitAll str).rowStride = s.rowStride := s.emitAll_keeps str State.rowStride fun _ _ => rfl
@[simp] theorem State.emitAll_spp : (s.emitAll str).spp = s.spp := s.emitAll_keeps str State.spp fun _ _ => rfl
@[simp] theorem State.emitAll_bitPos : (s.emitAll str).bitPos = s.bitPos := s.emitAll_keeps str State.bitPos fun _ _ => rfl
@[simp] theorem State.emitAll_nextCode : (s.emitAll str).nextCode = s.nextCode := s.emitAll_keeps str State.nextCode fun _ _ => rfl
@[simp] theorem State.emitAll_codeWidth : (s.emitAll str).codeWidth = s.codeWidth := s.emitAll_keeps str State.codeWidth fun _ _ => rfl
@[simp] theorem State.emitAll_prev : (s.emitAll str).prev = s.prev := s.emitAll_keeps str State.prev fun _ _ => rfl
@[simp] theorem State.emitAll_entry : (s.emitAll str).entry = s.entry := s.emitAll_keeps str State.entry fun _ _ => rfl
@[simp] theorem State.emitAll_inMem : (s.emitAll str).inMem = s.inMem := s.emitAll_keeps str State.inMem fun _ _ => rfl
@[simp] theorem State.emitAll_outGiven : (s.emitAll str).outGiven = s.outGiven := s.emitAll_keeps str State.outGiven fun _ _ => rfl
@[simp] theorem State.emitAll_overlap : (s.emitAll str).overlap = s.overlap := s.emitAll_keeps str State.overlap fun _ _ => rfl
@[simp] theorem State.emitAll_refusedMark : (s.emitAll str).refusedMark = s.refusedMark := s.emitAll_keeps str State.refusedMark fun _ _ => rfl
@[simp] theorem State.emitAll_script : (s.emitAll str).script = s.script := s.emitAll_keeps str State.script fun _ _ => rfl
@[simp] theorem State.emitAll_hostData : (s.emitAll str).hostData = s.hostData := s.emitAll_keeps str State.hostData fun _ _ => rfl
@[simp] theorem State.emitAll_draws : (s.emitAll str).draws = s.draws := s.emitAll_keeps str State.draws fun _ _ => rfl

@[simp] theorem State.emitAll_lane_length : (s.emitAll str).lane.length = s.lane.length :=
  s.emitAll_keeps str (fun u => u.lane.length) fun _ _ => by simp

end Frame

theorem State.emitByte_outPos_toNat {s : State} {b : Byte} (h : s.outPos.toNat + 1 < 2 ^ 32) :
    (s.emitByte b).outPos.toNat = s.outPos.toNat + 1 := by
  simp only [State.emitByte_outPos, BitVec.toNat_ofNat]
  exact Nat.mod_eq_of_lt h

theorem State.emitAll_outPos {s : State} {str : Str} (h : s.outPos.toNat + str.length < 2 ^ 32) :
    (s.emitAll str).outPos.toNat = s.outPos.toNat + str.length := by
  induction str generalizing s with
  | nil => rfl
  | cons b t ih =>
    simp only [List.length_cons] at h
    have h1 := State.emitByte_outPos_toNat (s := s) (b := b) (by omega)
    rw [State.emitAll_cons, ih (by omega), h1, List.length_cons]
    omega

theorem State.emitAll_out_wf {s : State} {str : Str} (h : Memory.wf s.outMem = true) :
    Memory.wf (s.emitAll str).outMem = true := by
  induction str generalizing s with
  | nil => exact h
  | cons b t ih => exact ih (Memory.wf_write h)

/-- `EMIT` writes no byte outside the string's own offsets (20_memory.md R64). -/
theorem State.emitAll_others {s : State} {str : Str} (h : s.outPos.toNat + str.length < 2 ^ 32) {a : Nat}
    (ha : a < s.outPos.toNat ∨ s.outPos.toNat + str.length ≤ a) : (s.emitAll str).outByte a = s.outByte a := by
  induction str generalizing s with
  | nil => rfl
  | cons b t ih =>
    simp only [List.length_cons] at h ha
    have h1 := State.emitByte_outPos_toNat (s := s) (b := b) (by omega)
    rw [State.emitAll_cons, ih (by omega) (by omega)]
    exact Memory.read_write_other (by omega)

/-- Offsets less than a row apart in one row have columns as far apart. -/
theorem mod_sub_of_same_row {i j r : Nat} (hij : j ≤ i) (h : j / r = i / r) : i % r = j % r + (i - j) := by
  have h1 := Nat.div_add_mod i r
  have h2 := Nat.div_add_mod j r
  rw [h] at h2
  omega

/-- The byte just written is in its lane, and the other lanes of the row stand. -/
theorem State.emitByte_lane_getD {s : State} {b : Byte} (hw : Memory.wf s.outMem = true) (hp : s.usePred = true)
    (hl : s.spp.toNat ≤ s.lane.length) {l : Nat} (hlt : l < s.spp.toNat) :
    (s.emitByte b).lane.getD l 0#8 =
      if l = s.outPos.toNat % s.rowStride.toNat % s.spp.toNat then (s.emitByte b).outByte s.outPos.toNat
      else if s.outPos.toNat % s.rowStride.toNat = 0 then 0#8 else s.lane.getD l 0#8 := by
  have hout : (s.emitByte b).outByte s.outPos.toNat = (s.reconstruct b).1 := Memory.read_write_same hw
  rw [hout]
  simp only [State.emitByte_lane, State.reconstruct, hp, if_true, predict]
  by_cases hc : s.outPos.toNat % s.rowStride.toNat < s.spp.toNat
  · simp only [if_pos hc, Nat.mod_eq_of_lt hc, List.getD_eq_getElem?_getD, List.getElem?_set]
    by_cases h : s.outPos.toNat % s.rowStride.toNat = l
    · subst h
      have hb : s.outPos.toNat % s.rowStride.toNat < s.lane.length := by omega
      rw [if_pos rfl, if_pos rfl]
      split <;> simp [hb]
    · have h' : ¬ l = s.outPos.toNat % s.rowStride.toNat := fun e => h e.symm
      simp only [h, h', if_false]
      split
      · next hz =>
        have := zeroLanes_getD_below (l := s.lane) hlt
        rwa [List.getD_eq_getElem?_getD] at this
      · rfl
  · have hz : ¬ s.outPos.toNat % s.rowStride.toNat = 0 := by omega
    simp only [if_neg hc, if_neg hz, List.getD_eq_getElem?_getD, List.getElem?_set]
    by_cases h : s.outPos.toNat % s.rowStride.toNat % s.spp.toNat = l
    · have hb : l < s.lane.length := by omega
      simp [h, hb]
    · have h' : ¬ l = s.outPos.toNat % s.rowStride.toNat % s.spp.toNat := fun e => h e.symm
      simp [h, h']

/-- The lane law of `State.LaneInv`, without its premises on `ENG_STATE` and `USE_PRED`. -/
def State.LaneLaw (s : State) : Prop :=
  ∀ j, j < s.outPos.toNat → s.outPos.toNat ≤ j + s.spp.toNat →
    j / s.rowStride.toNat = s.outPos.toNat / s.rowStride.toNat →
    s.lane.getD (j % s.rowStride.toNat % s.spp.toNat) 0#8 = s.outByte j

/-- What every turn of `EMIT`'s loop needs of the state, and keeps. -/
structure State.EmitReady (s : State) : Prop where
  out_wf : Memory.wf s.outMem = true
  usePred : s.usePred = true
  rowStride_pos : 1 ≤ s.rowStride.toNat
  spp_pos : 1 ≤ s.spp.toNat
  spp_le : s.spp.toNat ≤ s.lane.length
  law : s.LaneLaw

theorem State.EmitReady.emitByte {s : State} (h : s.EmitReady) (b : Byte) (hb : s.outPos.toNat + 1 < 2 ^ 32) :
    (s.emitByte b).EmitReady where
  out_wf := Memory.wf_write h.out_wf
  usePred := h.usePred
  rowStride_pos := h.rowStride_pos
  spp_pos := h.spp_pos
  spp_le := by simpa using h.spp_le
  law := by
    intro j hj hspan hrow
    have hpos := State.emitByte_outPos_toNat (s := s) (b := b) hb
    rw [hpos] at hj hspan hrow
    simp only [State.emitByte_rowStride, State.emitByte_spp] at hspan hrow ⊢
    have hspp := h.spp_pos
    have hmodj : j % s.rowStride.toNat % s.spp.toNat < s.spp.toNat := Nat.mod_lt _ hspp
    rw [State.emitByte_lane_getD h.out_wf h.usePred h.spp_le hmodj]
    rcases Nat.lt_succ_iff_lt_or_eq.mp hj with hlt | rfl
    · have hdiv1 : j / s.rowStride.toNat ≤ s.outPos.toNat / s.rowStride.toNat := Nat.div_le_div_right (by omega)
      have hdiv2 : s.outPos.toNat / s.rowStride.toNat ≤ (s.outPos.toNat + 1) / s.rowStride.toNat :=
        Nat.div_le_div_right (by omega)
      have hsame : j / s.rowStride.toNat = s.outPos.toNat / s.rowStride.toNat := by omega
      have hcol := mod_sub_of_same_row (le_of_lt hlt) hsame
      have hnz : ¬ s.outPos.toNat % s.rowStride.toNat = 0 := by omega
      have hne : ¬ j % s.rowStride.toNat % s.spp.toNat = s.outPos.toNat % s.rowStride.toNat % s.spp.toNat := by
        intro he
        have : s.spp.toNat ∣ s.outPos.toNat - j := by
          have h1 : s.outPos.toNat - j = s.outPos.toNat % s.rowStride.toNat - j % s.rowStride.toNat := by omega
          rw [h1]
          exact (Nat.modEq_iff_dvd' (by omega)).mp he
        have := Nat.le_of_dvd (by omega) this
        omega
      rw [if_neg hne, if_neg hnz, h.law j hlt (by omega) hsame]
      exact (Memory.read_write_other (by omega)).symm
    · rw [if_pos rfl]

theorem State.EmitReady.emitAll {s : State} (h : s.EmitReady) (str : Str)
    (hb : s.outPos.toNat + str.length < 2 ^ 32) : (s.emitAll str).EmitReady := by
  induction str generalizing s with
  | nil => exact h
  | cons b t ih =>
    simp only [List.length_cons] at hb
    exact ih (h.emitByte b (by omega)) (by rw [State.emitByte_outPos_toNat (by omega)]; omega)

/-- The bytes of a string that are written unchanged (43_predictor.md R194, R195). -/
theorem State.emitAll_plain {s : State} {str : Str} (hw : Memory.wf s.outMem = true)
    (hb : s.outPos.toNat + str.length < 2 ^ 32) {k : Nat} (hk : k < str.length)
    (h : s.usePred = false ∨ (s.outPos.toNat + k) % s.rowStride.toNat < s.spp.toNat) :
    (s.emitAll str).outByte (s.outPos.toNat + k) = str.getD k 0#8 := by
  induction str generalizing s k with
  | nil => simp at hk
  | cons b t ih =>
    simp only [List.length_cons] at hb hk
    have h1 := State.emitByte_outPos_toNat (s := s) (b := b) (by omega)
    rw [State.emitAll_cons]
    cases k with
    | zero =>
      rw [State.emitAll_others (by omega) (by omega)]
      exact (Memory.read_write_same hw).trans (State.reconstruct_plain h)
    | succ k =>
      have hrw : s.outPos.toNat + (k + 1) = (s.emitByte b).outPos.toNat + k := by omega
      rw [hrw, ih (Memory.wf_write hw) (by omega) (by omega) (by rw [← hrw]; exact h)]
      simp

/-- The bytes of a string that are summed with the byte `SPP` before (43_predictor.md R196, R197). -/
theorem State.emitAll_summed {s : State} {str : Str} (h : s.EmitReady)
    (hb : s.outPos.toNat + str.length < 2 ^ 32) {k : Nat} (hk : k < str.length)
    (hc : s.spp.toNat ≤ (s.outPos.toNat + k) % s.rowStride.toNat) :
    (s.emitAll str).outByte (s.outPos.toNat + k) =
      str.getD k 0#8 + (s.emitAll str).outByte (s.outPos.toNat + k - s.spp.toNat) := by
  induction str generalizing s k with
  | nil => simp at hk
  | cons b t ih =>
    simp only [List.length_cons] at hb hk
    have h1 := State.emitByte_outPos_toNat (s := s) (b := b) (by omega)
    rw [State.emitAll_cons]
    cases k with
    | zero =>
      simp only [Nat.add_zero] at hc ⊢
      have hle : s.outPos.toNat % s.rowStride.toNat ≤ s.outPos.toNat := Nat.mod_le _ _
      have hpos := h.spp_pos
      rw [State.emitAll_others (by omega) (by omega), State.emitAll_others (by omega) (by omega)]
      have hsub : s.outPos.toNat - s.spp.toNat < s.outPos.toNat := by omega
      have hdm := Nat.div_add_mod s.outPos.toNat s.rowStride.toNat
      have hlt := Nat.mod_lt s.outPos.toNat h.rowStride_pos
      have hdecomp : s.outPos.toNat - s.spp.toNat =
          s.rowStride.toNat * (s.outPos.toNat / s.rowStride.toNat) +
            (s.outPos.toNat % s.rowStride.toNat - s.spp.toNat) := by omega
      have hrow : (s.outPos.toNat - s.spp.toNat) / s.rowStride.toNat = s.outPos.toNat / s.rowStride.toNat := by
        have hsmall : (s.outPos.toNat % s.rowStride.toNat - s.spp.toNat) / s.rowStride.toNat = 0 :=
          Nat.div_eq_of_lt (by omega)
        rw [hdecomp, Nat.mul_add_div h.rowStride_pos, hsmall, Nat.add_zero]
      have hcol : (s.outPos.toNat - s.spp.toNat) % s.rowStride.toNat =
          s.outPos.toNat % s.rowStride.toNat - s.spp.toNat := by
        rw [hdecomp, Nat.mul_add_mod, Nat.mod_eq_of_lt (by omega)]
      have hlane := h.law _ hsub (by omega) hrow
      rw [hcol, ← Nat.mod_eq_sub_mod hc] at hlane
      have hthis : (s.emitByte b).outByte s.outPos.toNat = (s.reconstruct b).1 := Memory.read_write_same h.out_wf
      have hthat : (s.emitByte b).outByte (s.outPos.toNat - s.spp.toNat) = s.outByte (s.outPos.toNat - s.spp.toNat) :=
        Memory.read_write_other (by omega)
      rw [hthis, hthat, State.reconstruct_summed h.usePred hpos hc, hlane]
      simp
    | succ k =>
      have hrw : s.outPos.toNat + (k + 1) = (s.emitByte b).outPos.toNat + k := by omega
      rw [hrw, ih (h.emitByte b (by omega)) (by omega) (by omega)
        (by simp only [State.emitByte_rowStride, State.emitByte_spp]; rw [← hrw]; exact hc)]
      simp

end Sys2Proof.Machine
end

