-- ==== Sys2Proof/Laws/Tail.lean ====
section
/-! SUPPORT. Everything the common tail of the string codes, and each code word, can do: what it answers under each
condition, and, the other way round, which case a next state came from. -/

namespace Sys2Proof.Machine

/-- The state after a string code that appends (42_decoder_engine.md R158). -/
def State.appendTail (s : State) (cur : Str) : State :=
  (((s.emitAll cur).storeEntry (s.prev ++ [cur.headD 0#8])).remember cur).widen

/-- The string fits in `OUT` (43_predictor.md R193). -/
def State.fits (s : State) (cur : Str) : Prop := s.outPos.toNat + cur.length ≤ s.outCap.toNat

/-- `TBL_APPEND(PREV, _)` passes both checks (41_code_table.md R134). -/
def State.canAppend (s : State) : Prop := s.nextCode.toNat < 4094 ∧ s.prev.length + 1 ≤ s.lMax

theorem State.fits.lt {s : State} {cur : Str} (h : s.fits cur) : s.outPos.toNat + cur.length < 2 ^ 32 :=
  lt_of_le_of_lt h s.outCap.isLt

theorem State.emit_fits {s : State} {cur : Str} (h : s.fits cur) : s.emit cur = .ok (s.emitAll cur) := by
  simp only [State.fits] at h
  simp [State.emit, h]

theorem State.emit_overflow {s : State} {cur : Str} (h : ¬ s.fits cur) : s.emit cur = .error .outputOverflow := by
  simp only [State.fits, not_le] at h
  simp [State.emit, h]

theorem State.tblAppend_ok {s : State} {p : Str} {x : Byte} (h : s.nextCode.toNat < 4094) (hp : p.length + 1 ≤ s.lMax) :
    s.tblAppend p x = .ok (s.storeEntry (p ++ [x])) := by
  have h1 : ¬ Config.tableFull ≤ s.nextCode.toNat := by simp only [Config.tableFull]; omega
  have h2 : ¬ s.lMax < p.length + 1 := by omega
  simp only [State.tblAppend, if_neg h1, if_neg h2]

theorem State.tblAppend_error {s : State} {p : Str} {x : Byte} (h : ¬ (s.nextCode.toNat < 4094 ∧ p.length + 1 ≤ s.lMax)) :
    s.tblAppend p x = .error .tableOverflow := by
  simp only [State.tblAppend, Config.tableFull]
  split
  · rfl
  · rw [if_pos (by omega)]

/-! ### `STRING_TAIL`, case by case -/

section Tail

variable {s : State} {cur : Str}

theorem State.stringTail_overflow (hc : cur ≠ []) (h : ¬ s.fits cur) :
    s.stringTail cur = .next (s.raise .outputOverflow) := by
  obtain ⟨x, t, rfl⟩ := List.exists_cons_of_ne_nil hc
  simp [State.stringTail, State.emit_overflow h]

theorem State.stringTail_first (hc : cur ≠ []) (h : s.fits cur) (hr : s.hasPrev = false) :
    s.stringTail cur = .next ((s.emitAll cur).remember cur) := by
  obtain ⟨x, t, rfl⟩ := List.exists_cons_of_ne_nil hc
  simp only [State.stringTail, State.emit_fits h, hr, Bool.false_eq_true, if_false]

theorem State.stringTail_append (hc : cur ≠ []) (h : s.fits cur) (hr : s.hasPrev = true) (ha : s.canAppend) :
    s.stringTail cur = .next (s.appendTail cur) := by
  obtain ⟨x, t, rfl⟩ := List.exists_cons_of_ne_nil hc
  have := State.tblAppend_ok (s := s.emitAll (x :: t)) (p := s.prev) (x := x) (by simpa using ha.1) (by simpa using ha.2)
  simp only [State.stringTail, State.emit_fits h, hr, if_true, State.emitAll_prev, this]
  rfl

theorem State.stringTail_full (hc : cur ≠ []) (h : s.fits cur) (hr : s.hasPrev = true) (ha : ¬ s.canAppend) :
    s.stringTail cur = .next ((s.emitAll cur).raise .tableOverflow) := by
  obtain ⟨x, t, rfl⟩ := List.exists_cons_of_ne_nil hc
  have := State.tblAppend_error (s := s.emitAll (x :: t)) (p := s.prev) (x := x) (by simpa [State.canAppend] using ha)
  simp only [State.stringTail, State.emit_fits h, hr, if_true, State.emitAll_prev, this]

/-- Which case of `STRING_TAIL` a next state came from. -/
theorem State.stringTail_cases {t : State} (h : s.stringTail cur = .next t) :
    cur ≠ [] ∧
      ((¬ s.fits cur ∧ t = s.raise .outputOverflow) ∨
        (s.fits cur ∧ s.hasPrev = true ∧ ¬ s.canAppend ∧ t = (s.emitAll cur).raise .tableOverflow) ∨
        (s.fits cur ∧ s.hasPrev = true ∧ s.canAppend ∧ t = s.appendTail cur) ∨
        (s.fits cur ∧ s.hasPrev = false ∧ t = (s.emitAll cur).remember cur)) := by
  have hc : cur ≠ [] := by
    rintro rfl
    simp [State.stringTail] at h
  refine ⟨hc, ?_⟩
  by_cases hf : s.fits cur
  · cases hr : s.hasPrev
    · rw [State.stringTail_first hc hf hr] at h
      cases h
      simp [hf]
    · by_cases ha : s.canAppend
      · rw [State.stringTail_append hc hf hr ha] at h
        cases h
        simp [hf, ha]
      · rw [State.stringTail_full hc hf hr ha] at h
        cases h
        simp [hf, ha]
  · rw [State.stringTail_overflow hc hf] at h
    cases h
    simp [hf]

end Tail

/-! ### What the tail leaves -/

/-- `EMIT` of a string that fits leaves what `Emitted` says. -/
theorem State.emitted {s : State} {cur : Str} (hi : s.Inv) (hb : s.busy = true) (hl : s.LaneInv) (hf : s.fits cur) :
    Emitted s cur (s.emitAll cur) where
  outPos := State.emitAll_outPos hf.lt
  plain _ hk h := State.emitAll_plain hi.out_wf hf.lt hk h
  summed _ hk hp hc :=
    have hci := hi.command hb
    State.emitAll_summed
      { out_wf := hi.out_wf, usePred := hp, rowStride_pos := hci.rowStride_pos, spp_pos := hci.spp_pos,
        spp_le := by rw [hi.lanes]; exact hci.spp_le, law := hl hb hp } hf.lt hk hc
  others _ ha := State.emitAll_others hf.lt ha

theorem Emitted.congr {s t u : State} {cur : Str} (h : Emitted s cur t) (hp : u.outPos = t.outPos)
    (hm : u.outMem = t.outMem) : Emitted s cur u where
  outPos := by rw [hp]; exact h.outPos
  plain k hk hh := by simpa only [State.outByte, hm] using h.plain k hk hh
  summed k hk hh hc := by simpa only [State.outByte, hm] using h.summed k hk hh hc
  others a ha := by simpa only [State.outByte, hm] using h.others a ha

@[simp] theorem State.appendTail_outPos (s : State) (cur : Str) : (s.appendTail cur).outPos = (s.emitAll cur).outPos := rfl
@[simp] theorem State.appendTail_outMem (s : State) (cur : Str) : (s.appendTail cur).outMem = (s.emitAll cur).outMem := rfl
@[simp] theorem State.appendTail_lane (s : State) (cur : Str) : (s.appendTail cur).lane = (s.emitAll cur).lane := rfl
@[simp] theorem State.appendTail_prev (s : State) (cur : Str) : (s.appendTail cur).prev = cur := rfl
@[simp] theorem State.appendTail_engState (s : State) (cur : Str) : (s.appendTail cur).engState = .running := rfl
@[simp] theorem State.appendTail_errKind (s : State) (cur : Str) : (s.appendTail cur).errKind = s.errKind := by
  simp [State.appendTail]
@[simp] theorem State.appendTail_bitPos (s : State) (cur : Str) : (s.appendTail cur).bitPos = s.bitPos := by
  simp [State.appendTail]
@[simp] theorem State.appendTail_nextCode (s : State) (cur : Str) :
    (s.appendTail cur).nextCode = BitVec.ofNat 12 (s.nextCode.toNat + 1) := by simp [State.appendTail]
@[simp] theorem State.appendTail_entry (s : State) (cur : Str) :
    (s.appendTail cur).entry = Table.write s.entry s.nextCode.toNat (s.prev ++ [cur.headD 0#8]) := by
  simp [State.appendTail]
theorem State.appendTail_codeWidth (s : State) (cur : Str) : (s.appendTail cur).codeWidth =
    BitVec.ofNat 4 (bumpWidth (BitVec.ofNat 12 (s.nextCode.toNat + 1)).toNat s.codeWidth.toNat) := by
  simp [State.appendTail]

theorem State.appendTail_nextCode_toNat {s : State} {cur : Str} (h : s.nextCode.toNat < 4094) :
    (s.appendTail cur).nextCode.toNat = s.nextCode.toNat + 1 := by
  simp only [State.appendTail_nextCode, BitVec.toNat_ofNat]
  exact Nat.mod_eq_of_lt (by omega)

theorem bumpWidth_lt {n w : Nat} (h : w < 16) : bumpWidth n w < 16 := by
  simp only [bumpWidth, Config.wMax]
  split <;> omega

theorem State.appendTail_codeWidth_toNat {s : State} {cur : Str} (h : s.nextCode.toNat < 4094) :
    (s.appendTail cur).codeWidth.toNat = bumpWidth (s.nextCode.toNat + 1) s.codeWidth.toNat := by
  have hn : (BitVec.ofNat 12 (s.nextCode.toNat + 1)).toNat = s.nextCode.toNat + 1 := by
    simp only [BitVec.toNat_ofNat]
    exact Nat.mod_eq_of_lt (by omega)
  have hw := bumpWidth_lt (n := s.nextCode.toNat + 1) s.codeWidth.isLt
  rw [State.appendTail_codeWidth, hn, BitVec.toNat_ofNat]
  exact Nat.mod_eq_of_lt (by omega)

/-- The bump keeps the width the function of `NEXT_CODE` that 10_state.md R29 gives. -/
theorem bumpWidth_widthOf (n : Nat) : bumpWidth (n + 1) (widthOf n) = widthOf (n + 1) := by
  simp only [bumpWidth, widthOf, Config.bump, Config.wMax, List.mem_cons, List.not_mem_nil, or_false]
  split_ifs <;> omega

/-- A string code that appends leaves what `Appended` says. -/
theorem State.appended {s : State} {cur : Str} (hw : Table.wf s.entry = true) (ha : s.canAppend) :
    Appended s cur (s.appendTail cur) where
  stored := by
    simp only [State.tblEntry, State.appendTail_entry]
    exact Table.read_write_same hw
  others k hk := by
    simp only [State.tblEntry, State.appendTail_entry]
    exact Table.read_write_other hk
  nextCode := State.appendTail_nextCode_toNat ha.1
  prev := rfl
  engState := rfl
  width := by
    rw [State.appendTail_codeWidth_toNat ha.1]
    simp [bumpWidth, Config.bump, Config.wMax]
  errKind := State.appendTail_errKind s cur

/-! ### What a code word answers -/

theorem State.whenEnabled_busy {s : State} {o : Host.Outcome State Fault Refusal} (h : s.busy = true) :
    s.whenEnabled o = o := by simp [State.whenEnabled, h]

theorem State.hasPrev_iff {s : State} : s.hasPrev = true ↔ s.engState = .running := by simp [State.hasPrev]

theorem State.isRef_iff {s : State} {k : Code} : s.isRef k = true ↔ 258 ≤ k.toNat ∧ k.toNat < s.nextCode.toNat := by
  simp only [State.isRef, Instr.wfIn, Bool.and_eq_true, decide_eq_true_eq]
  rfl

theorem State.isPend_iff {s : State} {k : Code} :
    s.isPend k = true ↔ k.toNat = s.nextCode.toNat ∧ s.engState = .running := by
  simp only [State.isPend, Instr.wfIn, Bool.and_eq_true, decide_eq_true_eq]
  exact Iff.and Iff.rfl State.hasPrev_iff

theorem State.isInvalid_iff {s : State} {k : Code} :
    s.isInvalid k = true ↔ s.nextCode.toNat < k.toNat ∨ k.toNat = s.nextCode.toNat ∧ s.engState ≠ .running := by
  simp only [State.isInvalid, Instr.wfIn, Bool.or_eq_true, Bool.and_eq_true, decide_eq_true_eq, Bool.not_eq_true']
  exact or_congr Iff.rfl (Iff.and Iff.rfl (Bool.eq_false_iff.trans (not_congr State.hasPrev_iff)))

theorem State.busy_iff {s : State} : s.busy = true ↔ s.engState = .cleared ∨ s.engState = .running := by
  simp [State.busy]

/-- The string a code stands for, as the meanings form it, is `State.resolved` in a state that meets `Inv`. -/
theorem State.litString_eq {s : State} (hc : s.CommandInv) (b : Byte) : s.litString b = [b] := by
  have hb := b.isLt
  have h := hc.fixed b.toNat (by omega)
  rw [State.litString, h, Table.unwritten, if_pos (by omega)]
  simp

theorem State.pendString_eq {s : State} (h : s.prev ≠ []) : s.pendString = s.prev ++ [s.prev.headD 0#8] := by
  obtain ⟨x, t, ht⟩ := List.exists_cons_of_ne_nil h
  simp [State.pendString, ht]

/-- The string codes run the common tail on the string they stand for. -/
theorem exec_string {s : State} {i : Instr} {cur : Str} (hc : s.CommandInv) (hb : s.busy = true)
    (hr : s.resolved i = some cur) : exec i s = s.stringTail cur := by
  cases i with
  | lit b =>
    simp only [State.resolved, Option.some.injEq] at hr
    simp [exec, execLit, State.whenEnabled_busy hb, State.litString_eq hc, hr]
  | ref k =>
    simp only [State.resolved] at hr
    split at hr
    · next h =>
      cases hr
      simp [exec, execRef, State.whenEnabled_busy hb, h, State.refString]
    · cases hr
  | pend k =>
    simp only [State.resolved] at hr
    split at hr
    · next h =>
      cases hr
      have hp : s.prev ≠ [] := by
        intro h0
        have h1 := hc.prev_iff.mpr h0
        simp [State.isPend, Instr.wfIn, State.ctx, State.hasPrev, h1] at h
      simp [exec, execPend, State.whenEnabled_busy hb, h, State.pendString_eq hp]
    · cases hr
  | clear => cases hr
  | eoi => cases hr
  | invalid k => cases hr
  | start w => cases hr

/-- The string a code stands for is not empty, and no longer than `L_MAX + 1` (10_state.md R34). -/
theorem State.resolved_ne_nil {s : State} {i : Instr} {cur : Str} (hc : s.CommandInv)
    (hr : s.resolved i = some cur) : cur ≠ [] := by
  cases i with
  | lit b =>
    cases hr
    simp
  | ref k =>
    simp only [State.resolved] at hr
    split at hr
    · next h =>
      cases hr
      rw [State.isRef_iff] at h
      intro h0
      have := (hc.appended k.toNat h.1 h.2).1
      simp [h0] at this
    · cases hr
  | pend k =>
    simp only [State.resolved] at hr
    split at hr
    · cases hr
      simp
    · cases hr
  | clear => cases hr
  | eoi => cases hr
  | invalid k => cases hr
  | start w => cases hr

/-- Which case a next state of a code word came from. -/
theorem exec_cases {i : Instr} {s t : State} (hi : i.isCodeWord = true) (h : exec i s = .next t) :
    s.busy = true ∧
      ((i = .clear ∧ t = s.clearCommand) ∨ (i = .eoi ∧ t = { s with engState := .done }) ∨
        (∃ k, i = .invalid k ∧ s.isInvalid k = true ∧ t = s.raise .invalidCode) ∨
        (∃ b, i = .lit b ∧ s.stringTail (s.litString b) = .next t) ∨
        (∃ k, i = .ref k ∧ s.isRef k = true ∧ s.stringTail (s.refString k) = .next t) ∨
        (∃ k, i = .pend k ∧ s.isPend k = true ∧ s.stringTail s.pendString = .next t)) := by
  have hb : s.busy = true := by
    by_contra hb
    cases i <;>
      simp_all [exec, execLit, execClear, execEoi, execRef, execPend, execInvalid, State.whenEnabled, Instr.isCodeWord]
  refine ⟨hb, ?_⟩
  cases i with
  | lit b => simpa [exec, execLit, State.whenEnabled_busy hb] using h
  | clear =>
    simp only [exec, execClear, State.whenEnabled_busy hb, Host.Outcome.next.injEq] at h
    simp [h]
  | eoi =>
    simp only [exec, execEoi, State.whenEnabled_busy hb, Host.Outcome.next.injEq] at h
    simp [h]
  | ref k =>
    simp only [exec, execRef, State.whenEnabled_busy hb] at h
    split at h
    · next hk => simpa [hk] using h
    · cases h
  | pend k =>
    simp only [exec, execPend, State.whenEnabled_busy hb] at h
    split at h
    · next hk => simpa [hk] using h
    · cases h
  | invalid k =>
    simp only [exec, execInvalid, State.whenEnabled_busy hb] at h
    split at h
    · next hk =>
      cases h
      simp [hk]
    · cases h
  | start w => simp [Instr.isCodeWord] at hi

/-- The cases of START (44_host_command.md R211, R212, R214). -/
theorem execStart_cases {w : Word32} {s t : State} (h : execStart w s = .next t) :
    (s.busy = true ∧ t = s) ∨
      (s.busy = false ∧ w.getLsbD 0 = true ∧ (s.setUsePred w).startLegal = true ∧ t = (s.setUsePred w).startValues) ∨
      (s.busy = false ∧ w.getLsbD 0 = true ∧ (s.setUsePred w).startLegal = false ∧ t = (s.setUsePred w).refuseCommand) ∨
      (s.busy = false ∧ w.getLsbD 0 = false ∧ t = s.setUsePred w) := by
  simp only [execStart] at h
  split at h
  · next hb => cases h; simp [hb]
  · next hb =>
    split at h
    · next hw =>
      split at h
      · next hl => cases h; simp_all
      · next hl => cases h; simp_all
    · next hw => cases h; simp_all

end Sys2Proof.Machine
end

