-- ==== Sys2Proof/Laws/Step.lean ====
section
/-! SUPPORT. Everything a step can do: what the engine's turn answers, and which case a next state came from. -/

namespace Sys2Proof.Machine

/-! ### Taking the host's next move off its list -/

section TakeMove

variable (s : State)

@[simp] theorem State.takeMove_lMax : s.takeMove.lMax = s.lMax := rfl
@[simp] theorem State.takeMove_sppMax : s.takeMove.sppMax = s.sppMax := rfl
@[simp] theorem State.takeMove_engState : s.takeMove.engState = s.engState := rfl
@[simp] theorem State.takeMove_errKind : s.takeMove.errKind = s.errKind := rfl
@[simp] theorem State.takeMove_usePred : s.takeMove.usePred = s.usePred := rfl
@[simp] theorem State.takeMove_inLen : s.takeMove.inLen = s.inLen := rfl
@[simp] theorem State.takeMove_outCap : s.takeMove.outCap = s.outCap := rfl
@[simp] theorem State.takeMove_rowStride : s.takeMove.rowStride = s.rowStride := rfl
@[simp] theorem State.takeMove_spp : s.takeMove.spp = s.spp := rfl
@[simp] theorem State.takeMove_bitPos : s.takeMove.bitPos = s.bitPos := rfl
@[simp] theorem State.takeMove_nextCode : s.takeMove.nextCode = s.nextCode := rfl
@[simp] theorem State.takeMove_codeWidth : s.takeMove.codeWidth = s.codeWidth := rfl
@[simp] theorem State.takeMove_prev : s.takeMove.prev = s.prev := rfl
@[simp] theorem State.takeMove_entry : s.takeMove.entry = s.entry := rfl
@[simp] theorem State.takeMove_outPos : s.takeMove.outPos = s.outPos := rfl
@[simp] theorem State.takeMove_lane : s.takeMove.lane = s.lane := rfl
@[simp] theorem State.takeMove_inMem : s.takeMove.inMem = s.inMem := rfl
@[simp] theorem State.takeMove_outMem : s.takeMove.outMem = s.outMem := rfl
@[simp] theorem State.takeMove_outGiven : s.takeMove.outGiven = s.outGiven := rfl
@[simp] theorem State.takeMove_overlap : s.takeMove.overlap = s.overlap := rfl
@[simp] theorem State.takeMove_refusedMark : s.takeMove.refusedMark = s.refusedMark := rfl
@[simp] theorem State.takeMove_script : s.takeMove.script = s.script.tail := rfl
@[simp] theorem State.takeMove_hostData : s.takeMove.hostData = s.hostData := rfl
@[simp] theorem State.takeMove_draws : s.takeMove.draws = s.draws := rfl
@[simp] theorem State.takeMove_busy : s.takeMove.busy = s.busy := rfl
@[simp] theorem State.takeMove_ctx : s.takeMove.ctx = s.ctx := rfl
@[simp] theorem State.takeMove_window (w : Nat) : s.takeMove.window w = s.window w := rfl
@[simp] theorem State.takeMove_regRead (off : Word32) : s.takeMove.regRead off = s.regRead off := rfl

theorem State.takeMove_nil {s : State} (h : s.script = []) : s.takeMove = s := by
  obtain ⟨⟩ := s
  simp only at h
  subst h
  rfl

end TakeMove

/-! ### The engine's turn -/

/-- The code at `BIT_POS` at `CODE_WIDTH` (40_bit_reader.md R111). -/
def State.codeHere (s : State) : Code := BitVec.ofNat 12 (codeOfBits (s.window s.codeWidth.toNat))

/-- `CODE_WIDTH` bits remain (40_bit_reader.md R112). -/
def State.codeRemains (s : State) : Prop := s.codeWidth.toNat ≤ 8 * s.inLen.toNat - s.bitPos.toNat

/-- `CODE_WIDTH` is 9..12 (10_state.md R29). -/
def State.widthLegal (s : State) : Prop := legalWidth s.codeWidth.toNat = true

theorem State.readCode_ok {s : State} {w : Nat} (h : w ≤ 8 * s.inLen.toNat - s.bitPos.toNat) :
    s.readCode w = .ok (BitVec.ofNat 12 (codeOfBits (s.window w)), s.advance w) := by
  simp only [State.readCode, if_neg (not_lt.mpr h)]

theorem State.readCode_error {s : State} {w : Nat} (h : ¬ w ≤ 8 * s.inLen.toNat - s.bitPos.toNat) :
    s.readCode w = .error .unexpectedEndOfInput := by
  simp only [State.readCode, if_pos (not_le.mp h)]

theorem State.engineTurn_iff {s : State} : s.engineTurn = true ↔
    s.busy = true ∧ s.refusedMark = false ∧ (s.script = [] ∨ s.script.head? = some .wait) := by
  simp [State.engineTurn, and_assoc]

/-- On its turn the engine reads and runs. -/
theorem step_engine {s : State} (h : s.engineTurn = true) : step s = s.takeMove.engineAction.outcome := by
  rw [State.engineTurn_iff] at h
  obtain ⟨hb, hr, hs⟩ := h
  cases hscript : s.script with
  | nil =>
    rw [State.takeMove_nil hscript]
    rw [State.busy_iff] at hb
    simp only [step, State.nextAction, hr, hscript, Bool.false_eq_true, if_false, State.quietAction]
    rcases hb with hb | hb <;> simp [hb]
  | cons m rest =>
    simp only [hscript, reduceCtorEq, List.head?_cons, Option.some.injEq, false_or] at hs
    subst hs
    simp only [step, State.nextAction, hr, hscript, Bool.false_eq_true, if_false, State.hostAction]
    rw [if_pos (by simpa using hb)]

/-- On its turn, with a whole code word there, a step runs the classified code word on the state after the read. -/
theorem step_runs {s : State} (h : s.engineTurn = true) (hw : s.widthLegal) (hr : s.codeRemains) :
    step s = exec (classify s.ctx s.codeHere) (s.takeMove.advance s.codeWidth.toNat) := by
  have := State.readCode_ok (s := s.takeMove) (w := s.codeWidth.toNat) hr
  simp only [State.widthLegal] at hw
  simp only [step_engine h, State.engineAction, State.takeMove_codeWidth, hw, if_true, this, Action.outcome]
  rfl

/-- On its turn, with fewer bits than a code word left, a step raises `UnexpectedEndOfInput` (40_bit_reader.md R112). -/
theorem step_starves {s : State} (h : s.engineTurn = true) (hw : s.widthLegal) (hr : ¬ s.codeRemains) :
    step s = .next (s.takeMove.raise .unexpectedEndOfInput) := by
  have := State.readCode_error (s := s.takeMove) (w := s.codeWidth.toNat) hr
  simp only [State.widthLegal] at hw
  simp only [step_engine h, State.engineAction, State.takeMove_codeWidth, hw, if_true, this, Action.outcome]

/-! ### Which case a next state came from -/

/-- The ways `t` can be the next state of `s`. -/
inductive StepCase (s : State) : State → Prop where
  | starved (ht : s.engineTurn = true) (hw : s.widthLegal) (hr : ¬ s.codeRemains) :
      StepCase s (s.takeMove.raise .unexpectedEndOfInput)
  | ran (t : State) (ht : s.engineTurn = true) (hw : s.widthLegal) (hr : s.codeRemains)
      (he : exec (classify s.ctx s.codeHere) (s.takeMove.advance s.codeWidth.toNat) = .next t) : StepCase s t
  | quiet (hs : s.script = []) (hi : s.engState = .idle ∨ s.engState = .done) : StepCase s s
  | started (w : Word32) (rest : List HostMove) (t : State) (hs : s.script = .write 0x00#32 w :: rest)
      (hw : w.getLsbD 0 = true) (he : execStart w s.takeMove = .next t) : StepCase s t
  | wrote (off v : Word32) (rest : List HostMove) (hs : s.script = .write off v :: rest)
      (hw : off = 0x00#32 → v.getLsbD 0 = false) : StepCase s (s.takeMove.regWrite off v)
  | read (off : Word32) (rest : List HostMove) (hs : s.script = .read off :: rest) :
      StepCase s (s.takeMove.receive (s.regRead off))
  | loadedIn (a : Word32) (b : Byte) (rest : List HostMove) (hs : s.script = .loadIn a b :: rest)
      (hb : s.busy = false) : StepCase s (s.takeMove.putIn a.toNat b)
  | loadedOut (a : Word32) (b : Byte) (rest : List HostMove) (hs : s.script = .loadOut a b :: rest)
      (hb : s.busy = false) : StepCase s (s.takeMove.putOut a.toNat b)
  | drew (a : Word32) (rest : List HostMove) (hs : s.script = .readOut a :: rest) (hb : s.busy = true)
      (ha : a.toNat < s.outGiven) :
      StepCase s s.takeMove.receiveDraw
  | collected (a : Word32) (rest : List HostMove) (hs : s.script = .readOut a :: rest) (hb : s.busy = false)
      (ha : a.toNat < s.outGiven) : StepCase s (s.takeMove.receive ((s.outByte a.toNat).setWidth 32))
  | declared (b : Bool) (rest : List HostMove) (hs : s.script = .declareOverlap b :: rest) :
      StepCase s (s.takeMove.declareOverlap b)
  | waited (rest : List HostMove) (hs : s.script = .wait :: rest) (hb : s.busy = false) : StepCase s s.takeMove

theorem step_engine_cases {s t : State} (h : s.engineTurn = true) (he : step s = .next t) : StepCase s t := by
  by_cases hw : s.widthLegal
  · by_cases hr : s.codeRemains
    · rw [step_runs h hw hr] at he
      exact .ran t h hw hr he
    · rw [step_starves h hw hr] at he
      cases he
      exact .starved h hw hr
  · simp only [State.widthLegal] at hw
    simp [step_engine h, State.engineAction, hw, Action.outcome] at he

/-- No step is taken once the refusal mark is set (44_host_command.md R212). -/
theorem step_refused {s : State} (h : s.refusedMark = true) : step s = .refused .commandRefused := by
  simp [step, State.nextAction, h, Action.outcome]

theorem decodeCtrlWrite_ok {v : Word32} (h : v.getLsbD 0 = true) : decodeCtrlWrite v = .ok (.start v) := by
  simp only [decodeCtrlWrite, h, if_true]

theorem decodeCtrlWrite_error {v : Word32} (h : v.getLsbD 0 = false) :
    decodeCtrlWrite v = .error .startBitClear := by
  simp only [decodeCtrlWrite, h, Bool.false_eq_true, if_false]

theorem step_start {s : State} {w : Word32} {rest : List HostMove} (hr : s.refusedMark = false)
    (hs : s.script = .write 0x00#32 w :: rest) (hw : w.getLsbD 0 = true) :
    step s = exec (.start w) s.takeMove := by
  simp only [step, State.nextAction, hr, hs, Bool.false_eq_true, if_false, State.hostAction, if_true,
    decodeCtrlWrite_ok hw, Action.outcome]

/-- The invariants of the machine are proved by these cases. -/
theorem step_cases {s t : State} (he : step s = .next t) : s.refusedMark = false ∧ StepCase s t := by
  have hr : s.refusedMark = false := by
    by_contra hr
    rw [step_refused (by simpa using hr)] at he
    cases he
  refine ⟨hr, ?_⟩
  cases hs : s.script with
  | nil =>
    by_cases hb : s.busy = true
    · exact step_engine_cases (State.engineTurn_iff.mpr ⟨hb, hr, .inl hs⟩) he
    · simp only [step, State.nextAction, hr, hs, Bool.false_eq_true, if_false, State.quietAction] at he
      cases hst : s.engState with
      | idle =>
        simp only [hst, Action.outcome, Host.Outcome.next.injEq] at he
        subst he
        exact .quiet hs (.inl hst)
      | done =>
        simp only [hst, Action.outcome, Host.Outcome.next.injEq] at he
        subst he
        exact .quiet hs (.inr hst)
      | failed => simp [hst, Action.outcome] at he
      | cleared => exact absurd (State.busy_iff.mpr (.inl hst)) hb
      | running => exact absurd (State.busy_iff.mpr (.inr hst)) hb
  | cons m rest =>
    cases m with
    | wait =>
      by_cases hb : s.busy = true
      · exact step_engine_cases (State.engineTurn_iff.mpr ⟨hb, hr, .inr (by simp [hs])⟩) he
      · simp only [step, State.nextAction, hr, hs, Bool.false_eq_true, if_false, State.hostAction,
          State.takeMove_busy, hb, Action.outcome, Host.Outcome.next.injEq] at he
        subst he
        exact .waited rest hs (by simpa using hb)
    | write off v =>
      by_cases h0 : off = 0x00#32
      · subst h0
        cases hv : v.getLsbD 0
        · simp only [step, State.nextAction, hr, hs, Bool.false_eq_true, if_false, State.hostAction, if_true,
            decodeCtrlWrite_error hv, Action.outcome, Host.Outcome.next.injEq] at he
          subst he
          exact .wrote _ v rest hs (fun _ => hv)
        · rw [step_start hr hs hv] at he
          exact .started v rest t hs hv he
      · simp only [step, State.nextAction, hr, hs, Bool.false_eq_true, if_false, State.hostAction, h0,
         Action.outcome, Host.Outcome.next.injEq] at he
        subst he
        exact .wrote off v rest hs (fun h => absurd h h0)
    | read off =>
      simp only [step, State.nextAction, hr, hs, Bool.false_eq_true, if_false, State.hostAction, Action.outcome,
        Host.Outcome.next.injEq] at he
      subst he
      exact .read off rest hs
    | loadIn a b =>
      cases hb : s.busy
      · simp only [step, State.nextAction, hr, hs, Bool.false_eq_true, if_false, State.hostAction,
          State.takeMove_busy, hb, Action.outcome, Host.Outcome.next.injEq] at he
        subst he
        exact .loadedIn a b rest hs hb
      · simp [step, State.nextAction, hr, hs, State.hostAction, hb, Action.outcome] at he
    | loadOut a b =>
      cases hb : s.busy
      · simp only [step, State.nextAction, hr, hs, Bool.false_eq_true, if_false, State.hostAction,
          State.takeMove_busy, hb, Action.outcome, Host.Outcome.next.injEq] at he
        subst he
        exact .loadedOut a b rest hs hb
      · simp [step, State.nextAction, hr, hs, State.hostAction, hb, Action.outcome] at he
    | readOut a =>
      by_cases ha : a.toNat < s.outGiven
      · cases hb : s.busy
        · simp only [step, State.nextAction, hr, hs, Bool.false_eq_true, if_false, State.hostAction, State.readOut,
            State.takeMove_busy, State.takeMove_outGiven, ha, hb, if_true, Action.outcome, Host.Outcome.next.injEq] at he
          subst he
          exact .collected a rest hs hb ha
        · simp only [step, State.nextAction, hr, hs, Bool.false_eq_true, if_false, State.hostAction, State.readOut,
            State.takeMove_busy, State.takeMove_outGiven, ha, hb, if_true, Action.outcome, Host.Outcome.next.injEq] at he
          subst he
          exact .drew a rest hs hb ha
      · simp [step, State.nextAction, hr, hs, State.hostAction, State.readOut, ha, Action.outcome] at he
    | declareOverlap b =>
      simp only [step, State.nextAction, hr, hs, Bool.false_eq_true, if_false, State.hostAction, Action.outcome,
        Host.Outcome.next.injEq] at he
      subst he
      exact .declared b rest hs

end Sys2Proof.Machine
end

