-- ==== Sys2Proof/Laws/Invariant.lean ====
section
/-! SUPPORT. What each update an engine step makes does to the invariant `State.Inv`, and what the string a code stands
for can be in a state that meets it. -/

namespace Sys2Proof.Machine

/-! ### What the invariant gives -/

/-- While a command runs the width is one of 9 to 12 (10_state.md R29). -/
theorem State.CommandInv.widthLegal {s : State} (h : s.CommandInv) : s.widthLegal := by
  have := h.width
  simp only [State.widthLegal, legalWidth, Config.wMin, Config.wMax, Bool.and_eq_true, decide_eq_true_eq, this,
    widthOf]
  split_ifs <;> omega

/-- In `RUNNING` the previous string is not empty (10_state.md R30). -/
theorem State.CommandInv.prev_ne_nil {s : State} (h : s.CommandInv) (hr : s.engState = .running) : s.prev ≠ [] := by
  intro h0
  have := h.prev_iff.mpr h0
  rw [hr] at this
  cases this

/-- The context of a running command is legal (10_state.md R28). -/
theorem State.CommandInv.ctx_legal {s : State} (h : s.CommandInv) : s.ctx.legal = true := by
  simp only [Ctx.legal, State.ctx, Bool.and_eq_true]
  exact ⟨decide_eq_true h.nextCode_ge, decide_eq_true h.nextCode_le⟩

/-- While a command runs there is no error (10_state.md R22). -/
theorem State.Inv.noError {s : State} (h : s.Inv) (hb : s.busy = true) : s.errKind = .noError :=
  h.err_iff.mpr (by rw [State.busy_iff] at hb; rcases hb with h | h <;> simp [h])

/-- The string a code stands for is at most `L_MAX` long, or, for a `PEND`, one byte longer than `PREV`
(10_state.md R34). -/
theorem State.resolved_length {s : State} {i : Instr} {cur : Str} (hv : s.Inv) (hc : s.CommandInv)
    (hr : s.resolved i = some cur) :
    cur.length ≤ s.lMax ∨ (cur.length = s.prev.length + 1 ∧ s.engState = .running) := by
  cases i with
  | lit b =>
    cases hr
    exact .inl hv.lMax_pos
  | ref k =>
    simp only [State.resolved] at hr
    split at hr
    · next h =>
      cases hr
      rw [State.isRef_iff] at h
      exact .inl (hc.appended _ h.1 h.2).2
    · cases hr
  | pend k =>
    simp only [State.resolved] at hr
    split at hr
    · next h =>
      cases hr
      exact .inr ⟨by simp, (State.isPend_iff.mp h).2⟩
    · cases hr
  | clear => cases hr
  | eoi => cases hr
  | invalid k => cases hr
  | start w => cases hr

/-- Which case a next state of a code word came from, in a state that meets the invariant. -/
theorem exec_cases_resolved {i : Instr} {s t : State} (hv : s.Inv) (hi : i.isCodeWord = true)
    (h : exec i s = .next t) :
    s.busy = true ∧
      ((i = .clear ∧ t = s.clearCommand) ∨ (i = .eoi ∧ t = { s with engState := .done }) ∨
        (∃ k, i = .invalid k ∧ t = s.raise .invalidCode) ∨
        (∃ cur, s.resolved i = some cur ∧ s.stringTail cur = .next t)) := by
  obtain ⟨hb, h⟩ := exec_cases hi h
  have hc := hv.command hb
  refine ⟨hb, ?_⟩
  rcases h with h | h | ⟨k, h1, _, h2⟩ | ⟨b, rfl, h'⟩ | ⟨k, rfl, hk, h'⟩ | ⟨k, rfl, hk, h'⟩
  · exact .inl h
  · exact .inr (.inl h)
  · exact .inr (.inr (.inl ⟨k, h1, h2⟩))
  · exact .inr (.inr (.inr ⟨_, rfl, by rwa [State.litString_eq hc] at h'⟩))
  · exact .inr (.inr (.inr ⟨_, by simp only [State.resolved, hk, if_true]; rfl, h'⟩))
  · exact .inr (.inr (.inr ⟨_, by simp only [State.resolved, hk, if_true]; rfl, by
      rwa [State.pendString_eq (hc.prev_ne_nil (State.isPend_iff.mp hk).2)] at h'⟩))

/-! ### What keeps it -/

/-- Changing only what the invariant does not speak of keeps it. -/
theorem State.Inv.congr {s t : State} (h : s.Inv)
    (e : t = { s with
      overlap := t.overlap, hostData := t.hostData, draws := t.draws, refusedMark := t.refusedMark,
      script := t.script }) : t.Inv := by
  rw [e]
  exact ⟨h.lMax_pos, h.sppMax_pos, h.lanes, h.in_wf, h.out_wf, h.entry_wf, h.err_iff, h.idle_prev,
    h.given_cap, h.given_pos, fun hb =>
    let c := h.command hb
    ⟨c.nextCode_ge, c.nextCode_le, c.width, c.prev_iff, c.cleared_next, c.bitPos_le, c.outPos_le, c.rowStride_pos,
      c.spp_pos, c.spp_le, c.fixed, c.appended, c.prev_le⟩⟩

theorem State.Inv.takeMove {s : State} (h : s.Inv) : s.takeMove.Inv := h.congr rfl

/-- A read that succeeds advances `BIT_POS` without wrapping (10_state.md R25). -/
theorem State.advance_toNat {s : State} {w : Nat} (hb : s.bitPos.toNat ≤ 8 * s.inLen.toNat)
    (hr : w ≤ 8 * s.inLen.toNat - s.bitPos.toNat) : (s.advance w).bitPos.toNat = s.bitPos.toNat + w := by
  have := s.inLen.isLt
  simp only [State.advance_bitPos, BitVec.toNat_ofNat]
  exact Nat.mod_eq_of_lt (by omega)

theorem State.Inv.advance {s : State} (h : s.Inv) (hb : s.busy = true) {w : Nat}
    (hr : w ≤ 8 * s.inLen.toNat - s.bitPos.toNat) : (s.advance w).Inv :=
  ⟨h.lMax_pos, h.sppMax_pos, h.lanes, h.in_wf, h.out_wf, h.entry_wf, h.err_iff, h.idle_prev,
    h.given_cap, h.given_pos, fun _ =>
    let c := h.command hb
    ⟨c.nextCode_ge, c.nextCode_le, c.width, c.prev_iff, c.cleared_next, by
      have := c.bitPos_le
      rw [State.advance_toNat c.bitPos_le hr]
      simp only [State.advance_inLen]
      omega, c.outPos_le, c.rowStride_pos, c.spp_pos, c.spp_le, c.fixed, c.appended, c.prev_le⟩⟩

theorem State.Inv.raise {s : State} (h : s.Inv) {e : ErrKind} (he : e ≠ .noError) : (s.raise e).Inv :=
  ⟨h.lMax_pos, h.sppMax_pos, h.lanes, h.in_wf, h.out_wf, h.entry_wf, by simp [he], by simp, h.given_cap,
    h.given_pos, fun hb => by simp [State.busy] at hb⟩

theorem State.Inv.clearCommand {s : State} (h : s.Inv) (hb : s.busy = true) : s.clearCommand.Inv :=
  ⟨h.lMax_pos, h.sppMax_pos, h.lanes, h.in_wf, h.out_wf, Table.wf_resetFixed h.entry_wf, by simp [h.noError hb],
    by simp, h.given_cap, h.given_pos, fun _ =>
    let c := h.command hb
    { nextCode_ge := by simp, nextCode_le := by simp, width := by simp [widthOf], prev_iff := by simp,
      cleared_next := by simp, bitPos_le := c.bitPos_le, outPos_le := c.outPos_le, rowStride_pos := c.rowStride_pos,
      spp_pos := c.spp_pos, spp_le := c.spp_le, fixed := fun k hk => Table.read_resetFixed_below hk,
      appended := fun k h1 h2 => by simp at h2; omega, prev_le := by simp }⟩

theorem State.Inv.emitAll {s : State} (h : s.Inv) (hb : s.busy = true) {cur : Str} (hf : s.fits cur) :
    (s.emitAll cur).Inv := by
  have hc := h.given_cap
  refine ⟨?_, ?_, ?_, ?_, State.emitAll_out_wf h.out_wf, ?_, ?_, ?_, ?_, ?_, fun _ => ?_⟩
  · simpa using h.lMax_pos
  · simpa using h.sppMax_pos
  · simpa using h.lanes
  · simpa using h.in_wf
  · simpa using h.entry_wf
  · simpa using h.err_iff
  · simpa using h.idle_prev
  · simpa using hc
  · rw [State.emitAll_outPos hf.lt]
    simp only [State.fits] at hf
    simp only [State.emitAll_outGiven]
    omega
  · have c := h.command hb
    refine ⟨?_, ?_, ?_, ?_, ?_, ?_, ?_, ?_, ?_, ?_, ?_, ?_, ?_⟩
    · simpa using c.nextCode_ge
    · simpa using c.nextCode_le
    · simpa using c.width
    · simpa using c.prev_iff
    · simpa using c.cleared_next
    · simpa using c.bitPos_le
    · rw [State.emitAll_outPos hf.lt]
      simpa [State.fits] using hf
    · simpa using c.rowStride_pos
    · simpa using c.spp_pos
    · simpa using c.spp_le
    · simpa [State.tblEntry] using c.fixed
    · simpa [State.tblEntry] using c.appended
    · simpa using c.prev_le

theorem State.Inv.remember {s : State} (h : s.Inv) (hb : s.busy = true) {cur : Str} (h1 : cur ≠ [])
    (h2 : cur.length ≤ s.lMax) : (s.remember cur).Inv :=
  ⟨h.lMax_pos, h.sppMax_pos, h.lanes, h.in_wf, h.out_wf, h.entry_wf, by simp [h.noError hb], by simp,
    h.given_cap, h.given_pos, fun _ =>
    let c := h.command hb
    { nextCode_ge := c.nextCode_ge, nextCode_le := c.nextCode_le, width := c.width, prev_iff := by simp [h1],
      cleared_next := by simp, bitPos_le := c.bitPos_le, outPos_le := c.outPos_le, rowStride_pos := c.rowStride_pos,
      spp_pos := c.spp_pos, spp_le := c.spp_le, fixed := c.fixed, appended := c.appended, prev_le := h2 }⟩

theorem State.Inv.startValues {s : State} (h : s.Inv) (hl : s.startLegal = true) : s.startValues.Inv := by
  simp only [State.startLegal, Bool.and_eq_true, decide_eq_true_eq] at hl
  obtain ⟨⟨⟨h1, h2⟩, h3⟩, _⟩ := hl
  exact ⟨h.lMax_pos, h.sppMax_pos, by simp, h.in_wf, h.out_wf, Table.wf_resetFixed h.entry_wf, by simp, by simp,
    h.given_cap, by simp, fun _ =>
      { nextCode_ge := by simp, nextCode_le := by simp, width := by simp [widthOf], prev_iff := by simp,
        cleared_next := by simp, bitPos_le := by simp, outPos_le := by simp, rowStride_pos := h1, spp_pos := h2,
        spp_le := h3, fixed := fun k hk => Table.read_resetFixed_below hk,
        appended := fun k h1 h2 => by simp at h2; omega, prev_le := by simp }⟩

/-- Outside a running command the invariant says little, and an update that keeps that little keeps it. -/
theorem State.Inv.of_not_busy {s t : State} (h : s.Inv) (hl : t.lMax = s.lMax) (hs : t.sppMax = s.sppMax)
    (hla : t.lane = s.lane) (hin : Memory.wf t.inMem = true) (hout : Memory.wf t.outMem = true)
    (hen : t.entry = s.entry) (her : t.errKind = s.errKind) (heng : t.engState = s.engState) (hp : t.prev = s.prev)
    (hcap : t.outCap.toNat ≤ t.outGiven) (hpos : t.outPos.toNat ≤ t.outGiven) (hb : s.busy = false) : t.Inv := by
  refine ⟨by rw [hl]; exact h.lMax_pos, by rw [hs]; exact h.sppMax_pos, by rw [hla, hs]; exact h.lanes, hin, hout,
    by rw [hen]; exact h.entry_wf, by rw [her, heng]; exact h.err_iff, by rw [heng, hp]; exact h.idle_prev,
    hcap, hpos, fun hb' => ?_⟩
  have : t.busy = s.busy := by simp [State.busy, heng]
  rw [this, hb] at hb'
  cases hb'

end Sys2Proof.Machine
end

