-- ==== Sys2Proof/Tests/Slice0.lean ====
section
/-! SUPPORT. Small tests, their expected results from the spec's encodings, worked examples and vectors (95_test_vectors.md);
and, for each statement with hypotheses, a witness that meets them. -/

namespace Sys2Proof.Tests

open Sys2Proof.Machine

/-! ### Well-formedness: an ill-formed term for each check -/

theorem test_wf_refuses :
    (Instr.ref 257#12).wf = false ∧ (Instr.ref 4094#12).wf = false ∧ (Instr.pend 257#12).wf = false ∧
    (Instr.pend 4095#12).wf = false ∧ (Instr.invalid 257#12).wf = false ∧ (Instr.start 2#32).wf = false := by decide

theorem test_wfIn_refuses :
    (Instr.ref 257#12).wfIn ⟨260, true⟩ = false ∧ (Instr.ref 260#12).wfIn ⟨260, true⟩ = false ∧
    (Instr.pend 259#12).wfIn ⟨260, true⟩ = false ∧ (Instr.pend 258#12).wfIn ⟨258, false⟩ = false ∧
    (Instr.invalid 260#12).wfIn ⟨260, true⟩ = false ∧ (Instr.invalid 259#12).wfIn ⟨260, false⟩ = false ∧
    (Instr.start 2#32).wfIn ⟨260, true⟩ = false ∧ (Ctx.mk 257 false).legal = false ∧
    (Ctx.mk 4095 true).legal = false := by decide

theorem test_wf_admits :
    (Instr.lit 0xFF#8).wf = true ∧ Instr.clear.wf = true ∧ Instr.eoi.wf = true ∧ (Instr.ref 4093#12).wf = true ∧
    (Instr.pend 4094#12).wf = true ∧ (Instr.invalid 4095#12).wf = true ∧ (Instr.start 1#32).wf = true := by decide

/-! ### Decoding: words written out bit by bit (30_encoding.md R80, R84, R89; spec/opcode_table.json) -/

/-- `CODE_12` of the table's `LIT` row: `0000bbbbbbbb` with b = 0x41. -/
theorem test_decode_lit_12 : decodeBits ⟨4094, true⟩ 12
    [false, false, false, false, false, true, false, false, false, false, false, true] = .ok (.lit 0x41#8, []) := rfl

/-- `CODE_9` of `CLEAR`: `100000000`; the bits after it are left. -/
theorem test_decode_clear_9 : decodeBits ⟨258, false⟩ 9
    [true, false, false, false, false, false, false, false, false, true, true] = .ok (.clear, [true, true]) := rfl

/-- `CODE_11` of `EOI`: `00100000001`. -/
theorem test_decode_eoi_11 : decodeBits ⟨1023, true⟩ 11
    [false, false, true, false, false, false, false, false, false, false, true] = .ok (.eoi, []) := rfl

/-- 258 = `0100000010` in 10 bits. -/
theorem test_decode_ref_10 : decodeBits ⟨511, true⟩ 10
    [false, true, false, false, false, false, false, false, true, false] = .ok (.ref 258#12, []) := rfl

/-- 4094 = `111111111110`: the pending slot of a full table (30_encoding.md R85). -/
theorem test_decode_pend_12 : decodeBits ⟨4094, true⟩ 12
    [true, true, true, true, true, true, true, true, true, true, true, false] = .ok (.pend 4094#12, []) := rfl

/-- The all-ones code, always `INVALID` (30_encoding.md R85). -/
theorem test_decode_invalid_12 : decodeBits ⟨4094, true⟩ 12
    [true, true, true, true, true, true, true, true, true, true, true, true] = .ok (.invalid 4095#12, []) := rfl

/-- Code 258 with no previous string (30_encoding.md R84 row 3′). -/
theorem test_decode_invalid_cleared : decodeBits ⟨258, false⟩ 9
    [true, false, false, false, false, false, false, true, false] = .ok (.invalid 258#12, []) := rfl

/-- A host write of 3 to `CTRL` is START (44_host_command.md R211); one of 2 is not. -/
theorem test_decode_start :
    decodeCtrlWrite 3#32 = .ok (.start 3#32) ∧ decodeCtrlWrite 2#32 = .error .startBitClear := ⟨rfl, rfl⟩

/-- What is no code word is refused by name. -/
theorem test_decode_rejects :
    decodeBits ⟨258, false⟩ 8 (List.replicate 8 true) = .error .widthNotLegal ∧
    decodeBits ⟨258, false⟩ 13 (List.replicate 13 true) = .error .widthNotLegal ∧
    decodeBits ⟨258, false⟩ 9 (List.replicate 8 true) = .error .tooFewBits := ⟨rfl, rfl, rfl⟩

/-- A word of each row of the table. -/
theorem test_table_words :
    decodeTableWord 16 0x041 = some (.lit 0x41#8) ∧ decodeTableWord 16 0x100 = some .clear ∧
    decodeTableWord 16 0x101 = some .eoi ∧ decodeTableWord 16 0x102 = some (.ref 258#12) ∧
    decodeTableWord 16 0x103 = some (.pend 259#12) ∧ decodeTableWord 16 0xFFF = some (.invalid 4095#12) ∧
    decodeTableWord 32 0x1 = some (.start 1#32) ∧ decodeTableWord 8 0x1 = some (.start 1#32) ∧
    decodeTableWord 32 0x2 = none ∧ decodeTableWord 16 0x1000 = none := by decide

/-! ### The assembler (30_encoding.md R88, R89; 95_test_vectors.md P1, P5, L1-4) -/

theorem test_assemble_scenario_one :
    assemble [.clear, .lit 0x41#8, .eoi] = [0x80#8, 0x10#8, 0x60#8, 0x20#8] := by decide

theorem test_assemble_p1 :
    assemble [.clear, .lit 0x41#8, .lit 0x42#8, .ref 258#12, .pend, .eoi] =
      [0x80#8, 0x10#8, 0x48#8, 0x50#8, 0x28#8, 0x24#8, 0x04#8] := by decide

theorem test_assemble_p5 :
    assemble [.clear, .lit 0x41#8, .lit 0x42#8, .ref 258#12, .code 262#12, .eoi] =
      [0x80#8, 0x10#8, 0x48#8, 0x50#8, 0x28#8, 0x34#8, 0x04#8] := by decide

/-- The width the assembler gives the code after the append that makes `NEXT_CODE` = 511 is 10 (42_decoder_engine.md
R160). -/
theorem test_assemble_bump :
    (AsmState.mk ⟨510, true⟩ 9).after (.lit 0#8) = ⟨⟨511, true⟩, 10⟩ := by decide

/-! ### States -/

/-- The input of Scenario 1 (30_encoding.md R89). -/
def scenarioOne : List Host.Cell := [(0, 0x80#8), (1, 0x10#8), (2, 0x60#8), (3, 0x20#8)]

/-- The host has configured Scenario 1 (44_host_command.md R211's example). -/
def ready : State :=
  { State.reset with inLen := 4#32, outCap := 16#32, rowStride := 1#32, spp := 1#32, inMem := scenarioOne, outGiven := 16 }

/-- Just started. -/
def cleared : State := { ready with engState := .cleared }

/-- After `CLEAR; LIT 0x41`. -/
def running : State :=
  { ready with
    engState := .running, bitPos := 18#35, outPos := 1#32, outMem := [(0, 0x41#8)], prev := [0x41#8] }

/-- After `CLEAR; LIT 0x41; LIT 0x42` of P1 (95_test_vectors.md). -/
def p1 : State :=
  { ready with
    engState := .running, inLen := 7#32, bitPos := 27#35, outPos := 2#32, outMem := [(0, 0x41#8), (1, 0x42#8)],
    prev := [0x42#8], nextCode := 259#12, entry := [(258, [0x41#8, 0x42#8])],
    inMem := [(0, 0x80#8), (1, 0x10#8), (2, 0x48#8), (3, 0x50#8), (4, 0x28#8), (5, 0x24#8), (6, 0x04#8)] }

/-- Ended with `InvalidCode`. -/
def failed : State := { ready with engState := .failed, errKind := .invalidCode }

/-- The host's moves, the next one first. -/
def script (s : State) (moves : List HostMove) : State := { s with script := moves }

/-- `n` slots from `k` up, each holding two bytes. -/
def slots : Nat → Nat → List (Nat × Str)
  | _, 0 => []
  | k, n + 1 => (k, [0#8, 0#8]) :: slots (k + 1) n

/-- A running command with a full table (41_code_table.md R134). -/
def full : State := { running with nextCode := 4094#12, codeWidth := 12#4, entry := slots 258 3836 }

/-- A running command whose next append would be longer than `L_MAX`. -/
def guarded : State := { running with lMax := 1 }

/-- The next state, where there is one. -/
def nextOf (o : Host.Outcome State Fault Refusal) : Option State :=
  match o with
  | .next t => some t
  | .fault _ => none
  | .refused _ => none

/-- The fault, where it is one. -/
def faultOf (o : Host.Outcome State Fault Refusal) : Option Fault :=
  match o with
  | .next _ => none
  | .fault r => some r
  | .refused _ => none

/-- The refusal, where it is one. -/
def refusalOf (o : Host.Outcome State Fault Refusal) : Option Refusal :=
  match o with
  | .next _ => none
  | .fault _ => none
  | .refused r => some r

/-! ### The Bit Reader (95_test_vectors.md T-BR) -/

/-- The code `READCODE` returns, and `BIT_POS` after it. -/
def readOf (s : State) (w : Nat) : Option (Nat × Nat) :=
  match s.readCode w with
  | .ok (c, t) => some (c.toNat, t.bitPos.toNat)
  | .error _ => none

theorem test_readCode :
    readOf ready 9 = some (256, 9) ∧ readOf { ready with bitPos := 9#35 } 9 = some (65, 18) ∧
    readOf { ready with bitPos := 18#35 } 9 = some (257, 27) ∧ readOf { ready with bitPos := 27#35 } 9 = none ∧
    readOf { ready with bitPos := 23#35 } 9 = some (32, 32) := by decide

/-- T-BR-5: a 12-bit code over three bytes. -/
theorem test_readCode_three_bytes :
    readOf { ready with inLen := 3#32, bitPos := 7#35, inMem := [(0, 0x01#8), (1, 0xFF#8), (2, 0xE0#8)] } 12 =
      some (4095, 19) := by decide

/-! ### One instruction at a time -/

/-- The example of 42_decoder_engine.md R154. -/
theorem test_lit_first :
    (nextOf (exec (.lit 0x41#8) cleared)).map
      (fun t => (t.outByte 0, t.outPos.toNat, t.prev, t.nextCode.toNat, t.engState)) =
    some (0x41#8, 1, [0x41#8], 258, .running) := by decide

/-- The example of 42_decoder_engine.md R160: the width bump. -/
theorem test_lit_bump :
    (nextOf (exec (.lit 0#8) { running with nextCode := 510#12 })).map
      (fun t => (t.nextCode.toNat, t.codeWidth.toNat, t.tblEntry 510)) =
    some (511, 10, [0x41#8, 0#8]) := by decide

/-- The example of 42_decoder_engine.md R152. -/
theorem test_clear :
    (nextOf (exec .clear { running with nextCode := 300#12, codeWidth := 12#4 })).map
      (fun t => (t.engState, t.nextCode.toNat, t.codeWidth.toNat, t.prev, t.outPos.toNat)) =
    some (.cleared, 258, 9, [], 1) := by decide

/-- The example of 42_decoder_engine.md R153: the last step of Scenario 1. -/
theorem test_eoi :
    (nextOf (exec .eoi running)).map (fun t => (t.engState, t.status, t.regRead 0x18#32)) =
    some (.done, 2#32, 1#32) := by decide

/-- The example of 42_decoder_engine.md R155: step 4 of P1. -/
theorem test_ref :
    (nextOf (exec (.ref 258#12) p1)).map
      (fun t => (t.outByte 2, t.outByte 3, t.tblEntry 259, t.nextCode.toNat, t.prev)) =
    some (0x41#8, 0x42#8, [0x42#8, 0x41#8], 260, [0x41#8, 0x42#8]) := by decide

/-- The example of 42_decoder_engine.md R156: step 5 of P1. -/
theorem test_pend :
    (nextOf (exec (.pend 260#12) { p1 with nextCode := 260#12, prev := [0x41#8, 0x42#8], outPos := 4#32 })).map
      (fun t => (t.outByte 4, t.outByte 5, t.outByte 6, t.tblEntry 260, t.nextCode.toNat)) =
    some (0x41#8, 0x42#8, 0x41#8, [0x41#8, 0x42#8, 0x41#8], 261) := by decide

/-- A string over a row boundary, as in T-PR-7: 0x41 + 0xC4, then a row start, then 0x41 + 0x42 (43_predictor.md
R191). -/
theorem test_emit_row_boundary :
    let s := State.emitAll { running with outPos := 3#32, usePred := true, rowStride := 4#32, lane := [0xC4#8] }
      [0x41#8, 0x42#8, 0x41#8]
    (s.outByte 3, s.outByte 4, s.outByte 5, s.outPos.toNat, s.lane) =
      (0x05#8, 0x42#8, 0x83#8, 6, [0x83#8]) := by decide

/-- The example of 42_decoder_engine.md R157. -/
theorem test_invalid :
    (nextOf (exec (.invalid 300#12) running)).map (fun t => (t.status, t.regRead 0x18#32, t.nextCode.toNat)) =
    some (4#32, 1#32, 258) := by decide

/-- The example of 44_host_command.md R211. -/
theorem test_start :
    (nextOf (exec (.start 1#32) ready)).map (fun t => (t.status, t.regRead 0x18#32, t.usePred)) =
    some (1#32, 0#32, false) := by decide

/-- T-HOST-2: refused at power-on geometry; then no step. -/
theorem test_start_refused :
    (nextOf (exec (.start 1#32) State.reset)).map (fun t => (t.refusedMark, t.status, refusalOf (step t))) =
    some (true, 0#32, some .commandRefused) := by decide

/-! ### Errors and their order (95_test_vectors.md T-ERR) -/

/-- As T-ERR-6, with a `REF`: its two bytes do not fit where one would (60_exceptions.md R234). -/
theorem test_output_overflow :
    (nextOf (exec (.ref 258#12) { p1 with outCap := 3#32 })).map
      (fun t => (t.status, t.outPos.toNat, t.outByte 2, t.nextCode.toNat, t.prev)) =
    some (6#32, 2, 0#8, 259, [0x42#8]) := by decide

/-- 42_decoder_engine.md R161: the string is emitted before the append fails. -/
theorem test_table_overflow :
    (nextOf (exec (.pend 258#12) guarded)).map
      (fun t => (t.status, t.outPos.toNat, t.outByte 2, t.nextCode.toNat, t.prev)) =
    some (5#32, 3, 0x41#8, 258, [0x41#8]) := by decide

/-! ### One step -/

/-- T-BR-8: a command with no input. -/
theorem test_step_no_input :
    (nextOf (step { cleared with inLen := 0#32 })).map (fun t => (t.status, t.bitPos.toNat)) = some (3#32, 0) := by
  decide

/-- The first step of Scenario 1 reads `CLEAR`. -/
theorem test_step_reads :
    (nextOf (step cleared)).map (fun t => (t.engState, t.bitPos.toNat)) = some (.cleared, 9) := by decide

/-- T-HOST-7: `USE_PRED` without START. -/
theorem test_step_usePred :
    (nextOf (step (script State.reset [.write 0x00#32 2#32]))).map
      (fun t => (t.regRead 0x00#32, t.regRead 0x04#32)) = some (2#32, 0#32) := by decide

/-- T-HOST-1: an unmapped offset reads 0. -/
theorem test_step_unmapped :
    (nextOf (step (script { ready with hostData := 7#32 } [.read 0x1C#32]))).map State.hostData = some 0#32 := by
  decide

/-- Each row's word, placed by `withFetchWord` after reset, runs. -/
theorem test_placed_words_run :
    (nextOf (step (State.reset.withFetchWord 16 0x041))).map State.prev = some [0x41#8] ∧
    (nextOf (step (State.reset.withFetchWord 16 0x100))).map State.engState = some .cleared ∧
    (nextOf (step (State.reset.withFetchWord 16 0x101))).map State.engState = some .done ∧
    (nextOf (step (State.reset.withFetchWord 16 0x102))).map State.prev = some [0#8, 0#8] ∧
    (nextOf (step (State.reset.withFetchWord 16 0x103))).map State.prev = some [0#8, 0#8] ∧
    (nextOf (step (State.reset.withFetchWord 16 0xFFF))).map State.errKind = some .invalidCode ∧
    (nextOf (step (State.reset.withFetchWord 32 0x001))).map State.refusedMark = some true := by decide

/-! ### The states above meet the invariants -/

theorem ready_inv : ready.Inv :=
  ⟨by decide, by decide, by decide, by decide, by decide, by decide, by decide, by decide, by decide, by decide,
    fun h => by cases h⟩

theorem slots_wf (k n lo : Nat) (h : lo ≤ k) (hk : 258 ≤ k) :
    Sparse.wfFrom Table.unwritten lo (slots k n) = true := by
  induction n generalizing k lo with
  | zero => rfl
  | succ n ih =>
    have h1 : ¬ [0#8, 0#8] = Table.unwritten k := by
      rw [Table.unwritten, if_neg (by omega)]
      decide
    simp [slots, Sparse.wfFrom, h, h1, ih (k + 1) (k + 1) (le_refl _) (by omega)]

theorem slots_look (k n j : Nat) (h : k ≤ j) (hj : j < k + n) :
    Sparse.look Table.unwritten (slots k n) j = [0#8, 0#8] := by
  induction n generalizing k with
  | zero => omega
  | succ n ih =>
    simp only [slots, Sparse.look]
    split
    · rfl
    · exact ih (k + 1) (by omega) (by omega)

theorem command_inv {s : State} (hn : 258 ≤ s.nextCode.toNat) (hn' : s.nextCode.toNat ≤ 4094)
    (hw : s.codeWidth.toNat = widthOf s.nextCode.toNat) (hp : s.engState = .cleared ↔ s.prev = [])
    (hc : s.engState = .cleared → s.nextCode.toNat = 258) (hb : s.bitPos.toNat ≤ 8 * s.inLen.toNat)
    (ho : s.outPos.toNat ≤ s.outCap.toNat) (hr : 1 ≤ s.rowStride.toNat) (hs : 1 ≤ s.spp.toNat)
    (hs' : s.spp.toNat ≤ s.sppMax) (he : Sparse.wfFrom Table.unwritten 258 s.entry = true)
    (ha : ∀ k, 258 ≤ k → k < s.nextCode.toNat → 2 ≤ (s.tblEntry k).length ∧ (s.tblEntry k).length ≤ s.lMax)
    (hl : s.prev.length ≤ s.lMax) : s.CommandInv :=
  ⟨hn, hn', hw, hp, hc, hb, ho, hr, hs, hs', fun _ hk => Sparse.look_below he hk, ha, hl⟩

theorem none_appended {s : State} (h : s.nextCode.toNat = 258) :
    ∀ k, 258 ≤ k → k < s.nextCode.toNat → 2 ≤ (s.tblEntry k).length ∧ (s.tblEntry k).length ≤ s.lMax :=
  fun k h1 h2 => by omega

theorem cleared_inv : cleared.Inv :=
  ⟨by decide, by decide, by decide, by decide, by decide, by decide, by decide, by decide, by decide, by decide,
    fun _ =>
    command_inv (by decide) (by decide) (by decide) (by decide) (by decide) (by decide) (by decide) (by decide)
      (by decide) (by decide) (by decide) (none_appended (by decide)) (by decide)⟩

theorem running_inv : running.Inv :=
  ⟨by decide, by decide, by decide, by decide, by decide, by decide, by decide, by decide, by decide, by decide,
    fun _ =>
    command_inv (by decide) (by decide) (by decide) (by decide) (by decide) (by decide) (by decide) (by decide)
      (by decide) (by decide) (by decide) (none_appended (by decide)) (by decide)⟩

theorem guarded_inv : guarded.Inv :=
  ⟨by decide, by decide, by decide, by decide, by decide, by decide, by decide, by decide, by decide, by decide,
    fun _ =>
    command_inv (by decide) (by decide) (by decide) (by decide) (by decide) (by decide) (by decide) (by decide)
      (by decide) (by decide) (by decide) (none_appended (by decide)) (by decide)⟩

theorem p1_inv : p1.Inv :=
  ⟨by decide, by decide, by decide, by decide, by decide, by decide, by decide, by decide, by decide, by decide,
    fun _ =>
    command_inv (by decide) (by decide) (by decide) (by decide) (by decide) (by decide) (by decide) (by decide)
      (by decide) (by decide) (by decide)
      (fun k h1 h2 => by
        obtain rfl : k = 258 := by
          have : p1.nextCode.toNat = 259 := by decide
          omega
        decide) (by decide)⟩

theorem failed_inv : failed.Inv :=
  ⟨by decide, by decide, by decide, by decide, by decide, by decide, by decide, by decide, by decide, by decide,
    fun h => by cases h⟩

theorem full_inv : full.Inv :=
  ⟨by decide, by decide, by decide, by decide, by decide, slots_wf _ _ _ (by omega) (by omega), by decide, by decide,
    by decide, by decide,
    fun _ =>
    command_inv (by decide) (by decide) (by decide) (by decide) (by decide) (by decide) (by decide) (by decide)
      (by decide) (by decide) (slots_wf _ _ _ (le_refl _) (by omega))
      (fun k h1 h2 => by
        have h3 : full.nextCode.toNat = 4094 := by decide
        have h4 : full.tblEntry k = [0#8, 0#8] := slots_look _ _ _ h1 (by omega)
        rw [h4]
        decide) (by decide)⟩

/-- With the predictor off the lane invariant asks nothing. -/
theorem laneInv_off {s : State} (h : s.usePred = false) : s.LaneInv := fun _ hp => by rw [h] at hp; cases hp

/-- `running` with the predictor on, its one lane holding the byte written. -/
def predicted : State := { running with usePred := true, rowStride := 4#32, lane := 0x41#8 :: List.replicate 15 0#8 }

theorem predicted_inv : predicted.Inv :=
  ⟨by decide, by decide, by decide, by decide, by decide, by decide, by decide, by decide, by decide, by decide,
    fun _ =>
    command_inv (by decide) (by decide) (by decide) (by decide) (by decide) (by decide) (by decide) (by decide)
      (by decide) (by decide) (by decide) (none_appended (by decide)) (by decide)⟩

theorem predicted_laneInv : predicted.LaneInv := fun _ _ j hj _ _ => by
  obtain rfl : j = 0 := by
    have : predicted.outPos.toNat = 1 := by decide
    omega
  decide

theorem running_lengthBound : running.LengthBound := fun _ =>
  ⟨fun k h1 h2 => by
    have : running.nextCode.toNat = 258 := by decide
    omega, by decide⟩

/-! ### Witnesses: a state and operands that meet the hypotheses of each statement -/

theorem witness_ReadCodeIsMostSignificantBitFirst :
    (9 ≤ 9 ∧ 9 ≤ 12 ∧ ({ ready with bitPos := 23#35 } : State).bitPos.toNat + 9 ≤ 8 * ready.inLen.toNat) ∧
    (9 ≤ 12 ∧ 12 ≤ 12 ∧ 8 * ready.inLen.toNat < ({ ready with bitPos := 21#35 } : State).bitPos.toNat + 12) := by
  decide

theorem witness_ClassificationFollowsTheTable :
    (Ctx.mk 258 false).legal = true ∧ (Ctx.mk 4094 true).legal = true ∧
    classify ⟨4094, true⟩ 256#12 = .clear ∧ classify ⟨258, false⟩ 257#12 = .eoi ∧
    classify ⟨4094, true⟩ 4094#12 = .pend 4094#12 ∧ classify ⟨258, false⟩ 258#12 = .invalid 258#12 ∧
    classify ⟨258, true⟩ 258#12 = .pend 258#12 ∧ classify ⟨258, true⟩ 0#12 = .lit 0#8 ∧
    classify ⟨258, true⟩ 255#12 = .lit 255#8 ∧ classify ⟨259, true⟩ 258#12 = .ref 258#12 ∧
    classify ⟨4094, true⟩ 4093#12 = .ref 4093#12 ∧ classify ⟨4094, true⟩ 4095#12 = .invalid 4095#12 ∧
    classify ⟨258, true⟩ 259#12 = .invalid 259#12 := by decide

theorem witness_AllOnesCodeIsInvalid :
    (running.Inv ∧ running.busy = true ∧ (511#12).toNat = 2 ^ running.codeWidth.toNat - 1) ∧
    (full.Inv ∧ full.busy = true ∧ (4095#12).toNat = 2 ^ full.codeWidth.toNat - 1) :=
  ⟨⟨running_inv, by decide, by decide⟩, ⟨full_inv, by decide, by decide⟩⟩

theorem witness_DecodeOfEncodeIsTheInstruction :
    ((Ctx.mk 259 true).legal = true ∧ (Instr.ref 258#12).wfIn ⟨259, true⟩ = true ∧
      encodeCode (.ref 258#12) = some 258#12 ∧ (9 ≤ 9 ∧ 9 ≤ 12) ∧ (258#12).toNat < 2 ^ 9) ∧
    ((Ctx.mk 4094 true).legal = true ∧ (Instr.pend 4094#12).wfIn ⟨4094, true⟩ = true ∧
      encodeCode (.pend 4094#12) = some 4094#12 ∧ (9 ≤ 12 ∧ 12 ≤ 12) ∧ (4094#12).toNat < 2 ^ 12) ∧
    ((Instr.start 1#32).wfIn ⟨258, false⟩ = true ∧ (Instr.start 1#32).isCodeWord = false) := by decide

theorem witness_EncodeOfDecodeIsTheCodeWord :
    (Ctx.mk 258 false).legal = true ∧
    decodeBits ⟨258, false⟩ 9 [true, false, false, false, false, false, false, false, false, true] =
      .ok (.clear, [true]) := ⟨by decide, rfl⟩

theorem witness_StepRunsTheDecodedCodeWord :
    running.engineTurn = true ∧ running.bitPos.toNat + running.codeWidth.toNat ≤ 8 * running.inLen.toNat ∧
    decodeBits running.ctx running.codeWidth.toNat (running.window running.codeWidth.toNat) = .ok (.eoi, []) :=
  ⟨by decide, by decide, rfl⟩

/-- The engine's turn while the host waits. -/
theorem witness_engineTurn_wait : (script running [.wait]).engineTurn = true := by decide

theorem witness_StepWithoutAWholeCodeWordFails :
    ({ running with bitPos := 24#35 } : State).engineTurn = true ∧ 9 ≤ running.codeWidth.toNat ∧
    running.codeWidth.toNat ≤ 12 ∧
    8 * running.inLen.toNat < ({ running with bitPos := 24#35 } : State).bitPos.toNat + running.codeWidth.toNat := by
  decide

theorem witness_StepRunsStart :
    (script ready [.write 0x00#32 3#32]).refusedMark = false ∧
    (script ready [.write 0x00#32 3#32]).script = .write 0x00#32 3#32 :: [] ∧ (3#32).getLsbD 0 = true := by decide

theorem witness_EngineTurnAlwaysAnswers :
    running.Inv ∧ running.engineTurn = true ∧ (nextOf (step running)).isSome = true :=
  ⟨running_inv, by decide, by decide⟩

theorem witness_StartBeginsACommand :
    ready.busy = false ∧ (3#32).getLsbD 0 = true ∧ 1 ≤ ready.rowStride.toNat ∧ 1 ≤ ready.spp.toNat ∧
    ready.spp.toNat ≤ ready.sppMax ∧ ready.overlap = false ∧
    ({ ready with spp := 16#32 } : State).spp.toNat ≤ ready.sppMax := by decide

theorem witness_StartAgainstAPreconditionIsRefused :
    (1#32).getLsbD 0 = true ∧ ready.busy = false ∧
    ({ ready with rowStride := 0#32 } : State).rowStride.toNat = 0 ∧
    ({ ready with spp := 0#32 } : State).spp.toNat = 0 ∧
    ready.sppMax < ({ ready with spp := 17#32 } : State).spp.toNat ∧
    ({ ready with overlap := true } : State).overlap = true ∧
    ({ ready with refusedMark := true } : State).refusedMark = true := by decide

theorem witness_HostWritesWhileBusyAreIgnored :
    running.busy = true ∧ running.refusedMark = false ∧
    (script running [.write 0x00#32 1#32]).script = .write 0x00#32 1#32 :: [] ∧
    (script running [.write 0x0C#32 0#32]).script = .write 0x0C#32 0#32 :: [] ∧
    (script running [.loadIn 0#32 1#8]).script = .loadIn 0#32 1#8 :: [] ∧
    (script running [.loadOut 0#32 1#8]).script = .loadOut 0#32 1#8 :: [] := by decide

theorem witness_StatusIsComputedFromEngineState :
    ready.status = 0#32 ∧ cleared.status = 1#32 ∧ running.status = 1#32 ∧
    ({ ready with engState := .done } : State).status = 2#32 ∧
    ({ failed with errKind := .unexpectedEndOfInput } : State).status = 3#32 ∧ failed.status = 4#32 ∧
    ({ failed with errKind := .tableOverflow } : State).status = 5#32 ∧
    ({ failed with errKind := .outputOverflow } : State).status = 6#32 := by decide

/-- One offset of each clause: the seven registers, a misaligned one and the first above the map. -/
theorem witness_HostReadsFollowTheRegisterMap :
    (script ready [.read 0x14#32]).refusedMark = false ∧
    [0x00#32, 0x04#32, 0x08#32, 0x0C#32, 0x10#32, 0x14#32, 0x18#32, 0x1C#32, 0x01#32].map
      (fun off => (nextOf (step (script { ready with usePred := true, outPos := 5#32 } [.read off]))).map State.hostData) =
    [some 2#32, some 0#32, some 4#32, some 16#32, some 1#32, some 1#32, some 5#32, some 0#32, some 0#32] := by decide

theorem witness_HostWritesFollowTheRegisterMap :
    ready.refusedMark = false ∧ ready.busy = false ∧ (2#32).getLsbD 0 = false ∧
    [0x00#32, 0x04#32, 0x08#32, 0x0C#32, 0x10#32, 0x14#32, 0x18#32, 0x1C#32].map
      (fun off => (nextOf (step (script ready [.write off 6#32]))).map
        (fun t => [t.regRead 0x00#32, t.inLen, t.outCap, t.rowStride, t.spp, t.outPos])) =
    [some [2#32, 4#32, 16#32, 1#32, 1#32, 0#32], some [0#32, 4#32, 16#32, 1#32, 1#32, 0#32],
      some [0#32, 6#32, 16#32, 1#32, 1#32, 0#32], some [0#32, 4#32, 6#32, 1#32, 1#32, 0#32],
      some [0#32, 4#32, 16#32, 6#32, 1#32, 0#32], some [0#32, 4#32, 16#32, 1#32, 6#32, 0#32],
      some [0#32, 4#32, 16#32, 1#32, 1#32, 0#32], some [0#32, 4#32, 16#32, 1#32, 1#32, 0#32]] := by decide

/-- The last offset of `OUT` and the first past it, while `BUSY` and after. -/
theorem witness_HostReadsOfOutput :
    (script ready [.readOut 15#32]).Inv ∧ ready.refusedMark = false ∧ (15#32).toNat < ready.outCap.toNat ∧ (15#32).toNat < ready.outGiven ∧
    ready.busy = false ∧ running.busy = true ∧ (15#32).toNat < running.outGiven ∧ ready.outGiven ≤ (16#32).toNat ∧
    faultOf (step (script ready [.readOut 16#32])) = some .outsideOut ∧
    (nextOf (step (script running [.readOut 15#32]))).map State.draws = some 1 := ⟨ready_inv.congr rfl, by decide⟩

/-- Scenario 1 has ended with one byte out. -/
def ended : State := { running with engState := .done, bitPos := 27#35 }

theorem ended_inv : ended.Inv :=
  ⟨by decide, by decide, by decide, by decide, by decide, by decide, by decide, by decide, by decide, by decide,
    fun h => by cases h⟩

/-- `OUT_CAP` lowered to 0 after the command: its byte is still read (20_memory.md R69(a)). -/
theorem witness_LoweringOutCapLosesNoByte :
    (script ended [.write 0x0C#32 0#32, .readOut 0#32]).Inv ∧ ended.refusedMark = false ∧ ended.busy = false ∧
    (script ended [.write 0x0C#32 0#32, .readOut 0#32]).script = .write 0x0C#32 0#32 :: .readOut 0#32 :: [] ∧
    (0#32).toNat < ended.outPos.toNat ∧
    (nextOf (step (script { ended with outCap := 0#32 } [.readOut 0#32]))).map State.hostData = some 0x41#32 :=
  ⟨ended_inv.congr rfl, by decide⟩

theorem witness_HostLoadsFillTheMemories :
    (script ready [.loadIn 0xFFFFFFFF#32 9#8]).Inv ∧ ready.refusedMark = false ∧ ready.busy = false ∧
    (nextOf (step (script ready [.loadIn 0xFFFFFFFF#32 9#8]))).map (fun t => t.inByte 0xFFFFFFFF) = some 9#8 ∧
    (nextOf (step (script ready [.loadOut 0#32 9#8]))).map (fun t => t.outByte 0) = some 9#8 ∧
    (nextOf (step (script ready [.declareOverlap true]))).map State.overlap = some true :=
  ⟨ready_inv.congr rfl, by decide⟩

theorem witness_ClearResetsTheDictionary : cleared.busy = true ∧ full.busy = true := by decide

theorem witness_EoiEndsTheCommand : cleared.busy = true ∧ running.busy = true := by decide

theorem witness_InvalidCodeIsRaised :
    running.busy = true ∧ 258 ≤ running.nextCode.toNat ∧ running.nextCode.toNat < (259#12).toNat ∧
    cleared.busy = true ∧ (258#12).toNat = cleared.nextCode.toNat ∧ cleared.engState = .cleared := by decide

/-- The byte just fits. -/
theorem witness_LiteralAfterAReset :
    cleared.Inv ∧ cleared.LaneInv ∧ cleared.engState = .cleared ∧
      cleared.outPos.toNat + 1 ≤ cleared.outCap.toNat := ⟨cleared_inv, laneInv_off rfl, by decide⟩

theorem witness_LiteralAppendsAnEntry :
    predicted.Inv ∧ predicted.LaneInv ∧ predicted.engState = .running ∧
      predicted.outPos.toNat + 1 ≤ predicted.outCap.toNat ∧ predicted.nextCode.toNat < 4094 ∧
      predicted.prev.length + 1 ≤ predicted.lMax := ⟨predicted_inv, predicted_laneInv, by decide⟩

theorem witness_ReferenceAppendsAnEntry :
    p1.Inv ∧ p1.LaneInv ∧ p1.engState = .running ∧ 258 ≤ (258#12).toNat ∧ (258#12).toNat < p1.nextCode.toNat ∧
      p1.outPos.toNat + (p1.tblEntry (258#12).toNat).length ≤ p1.outCap.toNat ∧ p1.nextCode.toNat < 4094 ∧
      p1.prev.length + 1 ≤ p1.lMax := ⟨p1_inv, laneInv_off rfl, by decide⟩

theorem witness_PendingSlotAppendsItsOwnString :
    running.Inv ∧ running.LaneInv ∧ running.engState = .running ∧ 258#12 = running.nextCode ∧
      running.outPos.toNat + (running.prev.length + 1) ≤ running.outCap.toNat ∧ running.nextCode.toNat < 4094 ∧
      running.prev.length + 1 ≤ running.lMax := ⟨running_inv, laneInv_off rfl, by decide⟩

/-- `p1` with `OUT` full. -/
def tight : State := { p1 with outCap := 2#32 }

theorem tight_inv : tight.Inv :=
  ⟨by decide, by decide, by decide, by decide, by decide, by decide, by decide, by decide, by decide, by decide,
    fun _ =>
    command_inv (by decide) (by decide) (by decide) (by decide) (by decide) (by decide) (by decide) (by decide)
      (by decide) (by decide) (by decide) (p1_inv.command rfl).appended (by decide)⟩

/-- A string one byte too long, and of each of the three classes. -/
theorem witness_StringThatDoesNotFitRaisesOutputOverflow :
    tight.Inv ∧ tight.busy = true ∧
    (tight.resolved (.lit 7#8) = some [7#8] ∧ tight.outCap.toNat < tight.outPos.toNat + [7#8].length) ∧
    (tight.resolved (.ref 258#12) = some [0x41#8, 0x42#8] ∧
      tight.outCap.toNat < tight.outPos.toNat + [0x41#8, 0x42#8].length) ∧
    (tight.resolved (.pend 259#12) = some [0x42#8, 0x42#8] ∧
      tight.outCap.toNat < tight.outPos.toNat + [0x42#8, 0x42#8].length) := ⟨tight_inv, by decide⟩

/-- Both checks of 41_code_table.md R134: a full table, and an entry one byte too long. -/
theorem witness_RefusedAppendRaisesTableOverflow :
    (full.Inv ∧ full.LaneInv ∧ full.engState = .running ∧ full.resolved (.lit 5#8) = some [5#8] ∧
      full.outPos.toNat + [5#8].length ≤ full.outCap.toNat ∧ 4094 ≤ full.nextCode.toNat) ∧
    (guarded.Inv ∧ guarded.LaneInv ∧ guarded.engState = .running ∧ guarded.resolved (.lit 5#8) = some [5#8] ∧
      guarded.outPos.toNat + [5#8].length ≤ guarded.outCap.toNat ∧ guarded.lMax < guarded.prev.length + 1) :=
  ⟨⟨full_inv, laneInv_off rfl, by decide, rfl, by decide, by decide⟩,
    ⟨guarded_inv, laneInv_off rfl, by decide, rfl, by decide, by decide⟩⟩

/-- T-TBL-3 and 41_code_table.md R136 (b): the last slot and the longest entry, and one past each. -/
theorem witness_TableAppend :
    4094 ≤ full.nextCode.toNat ∧ guarded.lMax < running.prev.length + 1 ∧
    Table.wf ({ running with nextCode := 4093#12, lMax := 2 } : State).entry = true ∧
    ({ running with nextCode := 4093#12, lMax := 2 } : State).nextCode.toNat < 4094 ∧
    running.prev.length + 1 ≤ ({ running with nextCode := 4093#12, lMax := 2 } : State).lMax := by decide

theorem witness_EmitReconstructsEveryByte :
    predicted.Inv ∧ predicted.LaneInv ∧ predicted.busy = true ∧
      predicted.outPos.toNat + (List.replicate 15 1#8).length ≤ predicted.outCap.toNat :=
  ⟨predicted_inv, predicted_laneInv, by decide⟩

/-- A byte that is summed, and one at a row start. -/
theorem witness_EmitOneByte :
    Memory.wf predicted.outMem = true ∧ predicted.usePred = true ∧ 1 ≤ predicted.spp.toNat ∧
    predicted.spp.toNat ≤ predicted.lane.length ∧
    predicted.outPos.toNat % predicted.rowStride.toNat = 1 ∧
    ({ predicted with outPos := 4#32 } : State).outPos.toNat % predicted.rowStride.toNat = 0 := by decide

theorem witness_PredictorOffIsTheIdentity :
    running.usePred = false ∧ Memory.wf running.outMem = true ∧
      running.outPos.toNat + (List.replicate 15 1#8).length ≤ running.outCap.toNat ∧
      14 < (List.replicate 15 1#8).length := by decide

theorem witness_CodeWordFrame :
    (Instr.lit 7#8).isCodeWord = true ∧ ∃ t, exec (.lit 7#8) running = .next t := ⟨rfl, _, rfl⟩

theorem witness_StringCodeFrame :
    (∃ t, exec (.lit 7#8) p1 = .next t) ∧ (∃ t, exec (.ref 258#12) p1 = .next t) ∧
      (∃ t, exec (.pend 259#12) p1 = .next t) ∧ 1 ≤ p1.spp.toNat ∧ p1.usePred = false :=
  ⟨⟨_, rfl⟩, ⟨_, rfl⟩, ⟨_, rfl⟩, by decide, rfl⟩

theorem witness_ControlCodeFrame :
    (∃ t, exec .clear p1 = .next t) ∧ (∃ t, exec .eoi p1 = .next t) ∧ (∃ t, exec (.invalid 300#12) p1 = .next t) :=
  ⟨⟨_, rfl⟩, ⟨_, rfl⟩, ⟨_, rfl⟩⟩

/-- START that begins, that is refused, and that is ignored. -/
theorem witness_StartFrame :
    (∃ t, exec (.start 1#32) ready = .next t) ∧ (∃ t, exec (.start 1#32) State.reset = .next t) ∧
      (∃ t, exec (.start 1#32) p1 = .next t) := ⟨⟨_, rfl⟩, ⟨_, rfl⟩, ⟨_, rfl⟩⟩

theorem witness_CodeWordStops :
    ((Instr.lit 7#8).isCodeWord = true ∧ ready.busy = false) ∧
    (running.busy = true ∧ (Instr.ref 258#12).wfIn running.ctx = false) ∧
    (({ running with entry := [(7, [])] } : State).busy = true ∧
      ({ running with entry := [(7, [])] } : State).litString 7#8 = []) ∧
    (({ p1 with entry := [] } : State).busy = true ∧
      (Instr.ref 258#12).wfIn ({ p1 with entry := [] } : State).ctx = true ∧
      ({ p1 with entry := [] } : State).refString 258#12 = []) ∧
    (({ running with prev := [] } : State).busy = true ∧
      (Instr.pend 258#12).wfIn ({ running with prev := [] } : State).ctx = true ∧
      ({ running with prev := [] } : State).pendString = []) := by decide

theorem witness_InvariantsHoldAtPowerOn : 1 ≤ 1 ∧ 1 ≤ Config.lMaxAtReset ∧ 1 ≤ Config.sppMaxAtReset := by decide

theorem witness_EveryStepKeepsTheInvariant : p1.Inv ∧ ∃ t, step p1 = .next t := ⟨p1_inv, _, rfl⟩

theorem witness_EveryStepKeepsTheLaneInvariant :
    predicted.Inv ∧ predicted.LaneInv ∧ ∃ t, step predicted = .next t :=
  ⟨predicted_inv, predicted_laneInv, _, rfl⟩

theorem witness_EveryStepKeepsTheLengthBound :
    running.Inv ∧ running.LengthBound ∧ ∃ t, step running = .next t := ⟨running_inv, running_lengthBound, _, rfl⟩

theorem witness_LengthGuardNeverFiresAbove3837 :
    running.Inv ∧ running.LengthBound ∧ 3837 ≤ running.lMax ∧ running.engState = .running ∧
      running.nextCode.toNat < 4094 := ⟨running_inv, running_lengthBound, by decide⟩

theorem witness_BitPosAdvancesByTheWidthRead :
    running.Inv ∧ running.engineTurn = true ∧ ∃ t, step running = .next t := ⟨running_inv, by decide, _, rfl⟩

theorem witness_OutputIsWrittenInOrder :
    p1.Inv ∧ p1.engineTurn = true ∧ ∃ t, step p1 = .next t := ⟨p1_inv, by decide, _, rfl⟩

theorem witness_NextCodeAndWidthMoveTogether :
    p1.Inv ∧ p1.engineTurn = true ∧ ∃ t, step p1 = .next t ∧ t.busy = true := ⟨p1_inv, by decide, _, rfl, rfl⟩

theorem witness_NoSlotBeyondTheTableIsWritten : p1.Inv ∧ ∃ t, step (script p1 [.wait]) = .next t :=
  ⟨p1_inv, _, rfl⟩

theorem witness_ConfigurationIsFixedWhileBusy :
    running.busy = true ∧ (∃ t, step running = .next t) ∧
      ∃ t, step (script running [.write 0x0C#32 0#32]) = .next t := ⟨by decide, ⟨_, rfl⟩, ⟨_, rfl⟩⟩

theorem witness_OnlyStartLeavesFailed :
    failed.engState = .failed ∧ failed.refusedMark = false ∧ failed.script = [] ∧
      (∃ t, step (script failed [.write 0x00#32 1#32]) = .next t) ∧
      ∃ t, step (script failed [.read 0x04#32]) = .next t := ⟨rfl, rfl, rfl, ⟨_, rfl⟩, ⟨_, rfl⟩⟩

theorem witness_IdleAndDoneRest :
    ready.refusedMark = false ∧ ready.script = [] ∧ ready.engState = .idle ∧
      ({ ready with engState := .done } : State).engState = .done := by decide

theorem witness_EveryCommandEnds :
    cleared.Inv ∧ cleared.busy = true ∧ cleared.refusedMark = false ∧ cleared.script = [] :=
  ⟨cleared_inv, by decide⟩

/-- Two states that differ in the stale slot 258 only. -/
theorem witness_StaleSlotsCannotBeObserved :
    running.Inv ∧ ({ running with entry := [(258, [1#8, 2#8])] } : State).Inv ∧
      AgreeButStale running { running with entry := [(258, [1#8, 2#8])] } ∧ ∃ t, step running = .next t :=
  ⟨running_inv,
    ⟨by decide, by decide, by decide, by decide, by decide, by decide, by decide, by decide, by decide, by decide,
    fun _ =>
      command_inv (by decide) (by decide) (by decide) (by decide) (by decide) (by decide) (by decide) (by decide)
        (by decide) (by decide) (by decide) (none_appended (by decide)) (by decide)⟩,
    ⟨rfl, fun _ k hk =>
      Sparse.look_below (lo := 258) (by decide) (lt_of_lt_of_eq hk (by decide))⟩, _, rfl⟩

/-- The host's setting after two different histories. -/
theorem witness_StartForgetsTheEarlierCommand :
    ready.busy = false ∧ failed.busy = false ∧ (1#32).getLsbD 0 = true ∧ SameLaunch ready failed ∧
      failed.refusedMark = ready.refusedMark ∧ ∃ t, exec (.start 1#32) ready = .next t ∧ t.engState = .cleared :=
  ⟨rfl, rfl, rfl, ⟨rfl, rfl, rfl, rfl, rfl, rfl, rfl, rfl, rfl, rfl, rfl, rfl, rfl⟩, rfl, _, rfl, rfl⟩

theorem witness_AssemblerTracksTheEngine :
    p1.Inv ∧ (Instr.ref 258#12).isCodeWord = true ∧ ∃ t, exec (.ref 258#12) p1 = .next t ∧ t.busy = true :=
  ⟨p1_inv, rfl, _, rfl, rfl⟩

end Sys2Proof.Tests
end

/-! PROOFS. The statements about the scope of the model (00_scope.md): what a value of `L_MAX` rules out. -/

namespace Sys2Proof.Machine

/-- While the table is not full, `NEXT_CODE` is at most 4093, so that the length bound leaves `PREV` at most 3836
bytes: an append of one byte to it meets both checks of 41_code_table.md R134. -/
theorem State.LengthBound.canAppend {s : State} (h : s.LengthBound) (hb : s.busy = true) (hl : 3837 ≤ s.lMax)
    (hn : s.nextCode.toNat < 4094) : s.canAppend := by
  obtain ⟨-, hprev⟩ := h hb
  exact ⟨hn, by omega⟩

/-- Settles O43: in `RUNNING` the length bound lets `PREV` be appended to, and an append that passes both checks
succeeds. -/
theorem lengthGuardNeverFiresAbove3837 : Obligations.LengthGuardNeverFiresAbove3837 := by
  intro s x _ hbound hl hrun hn
  have happend : s.canAppend := hbound.canAppend (State.busy_iff.mpr (.inr hrun)) hl hn
  exact ⟨_, State.tblAppend_ok happend.1 happend.2⟩

end Sys2Proof.Machine

/-! SUPPORT. The host's registers and START as equations: what a read returns, what a write leaves, when START begins a
command (10_state.md R24, 44_host_command.md R211, R212). -/

namespace Sys2Proof.Machine

theorem State.takeMove_cons {s : State} {m : HostMove} {rest : List HostMove} (hs : s.script = m :: rest) :
    s.takeMove = { s with script := rest } := by
  simp only [State.takeMove, hs, List.tail_cons]

theorem step_read {s : State} {off : Word32} {rest : List HostMove} (hr : s.refusedMark = false)
    (hs : s.script = .read off :: rest) : step s = .next (s.takeMove.receive (s.regRead off)) := by
  simp only [step, State.nextAction, hr, hs, Bool.false_eq_true, if_false, State.hostAction, Action.outcome,
    State.takeMove_regRead]

/-- A host write that is no START is a plain register write (44_host_command.md R211). -/
theorem step_write {s : State} {off v : Word32} {rest : List HostMove} (hr : s.refusedMark = false)
    (hs : s.script = .write off v :: rest) (hv : off = 0x00#32 → v.getLsbD 0 = false) :
    step s = .next (s.takeMove.regWrite off v) := by
  simp only [step, State.nextAction, hr, hs, Bool.false_eq_true, if_false, State.hostAction]
  split
  · next h => rw [decodeCtrlWrite_error (hv h)]; rfl
  · rfl

/-! ### The register map -/

section Registers

variable (s : State)

@[simp] theorem State.regRead_ctrl : s.regRead 0x00#32 = if s.usePred then 2#32 else 0#32 := rfl
@[simp] theorem State.regRead_status : s.regRead 0x04#32 = s.status := rfl
@[simp] theorem State.regRead_inLen : s.regRead 0x08#32 = s.inLen := rfl
@[simp] theorem State.regRead_outCap : s.regRead 0x0C#32 = s.outCap := rfl
@[simp] theorem State.regRead_rowStride : s.regRead 0x10#32 = s.rowStride := rfl
@[simp] theorem State.regRead_spp : s.regRead 0x14#32 = s.spp := rfl
@[simp] theorem State.regRead_bytesWritten : s.regRead 0x18#32 = s.outPos := rfl

theorem State.regRead_unmapped {off : Word32}
    (h : off ∉ [0x00#32, 0x04#32, 0x08#32, 0x0C#32, 0x10#32, 0x14#32, 0x18#32]) : s.regRead off = 0#32 := by
  simp only [List.mem_cons, List.not_mem_nil, or_false, not_or] at h
  simp only [State.regRead, h, if_false]

variable {s} (v : Word32)

theorem State.regWrite_busy {off : Word32} (hb : s.busy = true) : s.regWrite off v = s := by
  simp only [State.regWrite, hb, if_true]

theorem State.regWrite_ctrl (hb : s.busy = false) : s.regWrite 0x00#32 v = s.setUsePred v := by
  simp [State.regWrite, hb]

theorem State.regWrite_inLen (hb : s.busy = false) : s.regWrite 0x08#32 v = { s with inLen := v } := by
  simp [State.regWrite, hb]

theorem State.regWrite_outCap (hb : s.busy = false) :
    s.regWrite 0x0C#32 v = { s.giveOut v.toNat with outCap := v } := by
  simp [State.regWrite, hb]

theorem State.regWrite_rowStride (hb : s.busy = false) : s.regWrite 0x10#32 v = { s with rowStride := v } := by
  simp [State.regWrite, hb]

theorem State.regWrite_spp (hb : s.busy = false) : s.regWrite 0x14#32 v = { s with spp := v } := by
  simp [State.regWrite, hb]

/-- A write to a read-only register, or to an offset that is no register's, is ignored. -/
theorem State.regWrite_unmapped {off : Word32} (h : off ∉ [0x00#32, 0x08#32, 0x0C#32, 0x10#32, 0x14#32]) :
    s.regWrite off v = s := by
  simp only [List.mem_cons, List.not_mem_nil, or_false, not_or] at h
  simp only [State.regWrite, h, if_false, ite_self]

end Registers

theorem ErrKind.code_le (e : ErrKind) : e.code.toNat ≤ 6 := by cases e <;> decide

theorem State.status_le (s : State) : s.status.toNat ≤ 6 := by
  simp only [State.status]
  split
  case h_5 => exact s.errKind.code_le
  all_goals decide

/-! ### START -/

theorem State.startLegal_iff {s : State} : s.startLegal = true ↔
    1 ≤ s.rowStride.toNat ∧ 1 ≤ s.spp.toNat ∧ s.spp.toNat ≤ s.sppMax ∧ s.overlap = false := by
  simp [State.startLegal, and_assoc]

theorem execStart_begins {s : State} {w : Word32} (hb : s.busy = false) (hw : w.getLsbD 0 = true)
    (hl : (s.setUsePred w).startLegal = true) : execStart w s = .next (s.setUsePred w).startValues := by
  simp only [execStart, hb, hw, hl, Bool.false_eq_true, if_false, if_true]

/-- A START that leaves `CLEARED` from a state that is not `BUSY` has begun a command. -/
theorem execStart_cleared {s t : State} {w : Word32} (hb : s.busy = false) (h : execStart w s = .next t)
    (hc : t.engState = .cleared) : (s.setUsePred w).startLegal = true ∧ t = (s.setUsePred w).startValues := by
  have hnot : s.engState ≠ .cleared := fun h => by simp [State.busy, h] at hb
  rcases execStart_cases h with ⟨hb', -⟩ | ⟨-, -, hl, rfl⟩ | ⟨-, -, -, rfl⟩ | ⟨-, -, rfl⟩
  · simp [hb] at hb'
  · exact ⟨hl, rfl⟩
  · exact absurd hc hnot
  · exact absurd hc hnot

/-- After START, two states that agreed in the host's setting differ in the Code Table alone, and there only in slots
from 258 up (10_state.md R38, 41_code_table.md R130). -/
theorem SameLaunch.startValues {s s' : State} (h : SameLaunch s s') (hm : s'.refusedMark = s.refusedMark)
    (w : Word32) : AgreeButStale (s.setUsePred w).startValues (s'.setUsePred w).startValues where
  rest := by
    simp only [State.startValues, State.tblReset, State.setUsePred, h.lMax, h.sppMax, h.inLen, h.outCap, h.rowStride,
      h.spp, h.inMem, h.outMem, h.outGiven, h.overlap, h.script, h.hostData, h.draws, hm]
  live _ k hk := by
    have hk : k < 258 := hk
    exact (Table.read_resetFixed_below hk).trans (Table.read_resetFixed_below hk).symm

end Sys2Proof.Machine

/-! SUPPORT. The engine's turn in a state that meets the invariant, and what a step does to the invariant. -/

namespace Sys2Proof.Machine

/-- On its turn in a state that meets the invariant the engine either lacks the bits of a code word or runs one
(42_decoder_engine.md R150). -/
theorem State.Inv.engineTurn_cases {s t : State} (h : s.Inv) (ht : s.engineTurn = true) (he : step s = .next t) :
    t = s.takeMove.raise .unexpectedEndOfInput ∨
      s.codeRemains ∧ exec (classify s.ctx s.codeHere) (s.takeMove.advance s.codeWidth.toNat) = .next t := by
  have hw := (h.command (State.engineTurn_iff.mp ht).1).widthLegal
  by_cases hr : s.codeRemains
  · rw [step_runs ht hw hr] at he
    exact .inr ⟨hr, he⟩
  · rw [step_starves ht hw hr] at he
    cases he
    exact .inl rfl

/-! ### The common tail and the invariant -/

@[simp] theorem State.appendTail_lMax (s : State) (cur : Str) : (s.appendTail cur).lMax = s.lMax := by
  simp [State.appendTail]

/-- What a string code that appends leaves of what holds while a command runs (10_state.md R36, R31): the new entry is one
byte longer than `PREV`, which is not empty and is shorter than `L_MAX`. -/
theorem State.Inv.appendTail_command {s : State} (h : s.Inv) (hr : s.engState = .running) {cur : Str}
    (hf : s.fits cur) (ha : s.canAppend) (hne : cur ≠ []) (hl : cur.length ≤ s.lMax) :
    (s.appendTail cur).CommandInv := by
  have hb : s.busy = true := State.busy_iff.mpr (.inr hr)
  have c := h.command hb
  have e := (h.emitAll hb hf).command (by simpa [State.busy] using hb)
  have a := State.appended (cur := cur) h.entry_wf ha
  have hge := c.nextCode_ge
  exact {
    nextCode_ge := by rw [a.nextCode]; omega
    nextCode_le := by rw [a.nextCode]; exact ha.1
    width := by rw [State.appendTail_codeWidth_toNat ha.1, a.nextCode, c.width, bumpWidth_widthOf]
    prev_iff := by simp [hne]
    cleared_next := by simp
    bitPos_le := e.bitPos_le
    outPos_le := e.outPos_le
    rowStride_pos := e.rowStride_pos
    spp_pos := e.spp_pos
    spp_le := e.spp_le
    fixed := fun k hk => by rw [a.others k (by omega), c.fixed k hk]
    appended := fun k h1 h2 => by
      rw [a.nextCode] at h2
      by_cases hk : k = s.nextCode.toNat
      · have hprev := List.length_pos_of_ne_nil (c.prev_ne_nil hr)
        have hguard := ha.2
        rw [hk, a.stored, State.appendTail_lMax, List.length_append, List.length_singleton]
        omega
      · rw [a.others k hk, State.appendTail_lMax]
        exact c.appended k h1 (by omega)
    prev_le := by rw [State.appendTail_lMax]; exact hl }

theorem State.Inv.appendTail {s : State} (h : s.Inv) (hr : s.engState = .running) {cur : Str}
    (hf : s.fits cur) (ha : s.canAppend) (hne : cur ≠ []) (hl : cur.length ≤ s.lMax) : (s.appendTail cur).Inv := by
  have hb : s.busy = true := State.busy_iff.mpr (.inr hr)
  have e := h.emitAll hb hf
  exact ⟨e.lMax_pos, e.sppMax_pos, e.lanes, e.in_wf, e.out_wf, Table.wf_write e.entry_wf, by simp [h.noError hb],
    by simp, e.given_cap, e.given_pos, fun _ => h.appendTail_command hr hf ha hne hl⟩

/-- The common tail keeps the invariant. In `RUNNING` an append that passes the length guard leaves room for a `PEND`'s
string, one byte longer than `PREV` (41_code_table.md R134). -/
theorem State.Inv.stringTail {s t : State} {cur : Str} (h : s.Inv) (hb : s.busy = true)
    (hl : cur.length ≤ s.lMax ∨ (cur.length = s.prev.length + 1 ∧ s.engState = .running))
    (he : s.stringTail cur = .next t) : t.Inv := by
  obtain ⟨hne, ⟨-, rfl⟩ | ⟨hf, -, -, rfl⟩ | ⟨hf, hr, ha, rfl⟩ | ⟨hf, hr, rfl⟩⟩ := State.stringTail_cases he
  · exact h.raise (by decide)
  · exact (h.emitAll hb hf).raise (by decide)
  · have hguard := ha.2
    exact h.appendTail (State.hasPrev_iff.mp hr) hf ha hne (by omega)
  · have hr' : s.engState ≠ .running := fun h => by simp [State.hasPrev, h] at hr
    refine (h.emitAll hb hf).remember (by simpa [State.busy] using hb) hne ?_
    rw [State.emitAll_lMax]
    exact hl.resolve_right fun hp => hr' hp.2

/-! ### Code words and the invariant -/

/-- EOI: outside a running command the invariant asks less (42_decoder_engine.md R153). -/
theorem State.Inv.eoi {s : State} (h : s.Inv) (hb : s.busy = true) : { s with engState := .done }.Inv :=
  ⟨h.lMax_pos, h.sppMax_pos, h.lanes, h.in_wf, h.out_wf, h.entry_wf, by simp [h.noError hb], by simp, h.given_cap,
    h.given_pos, fun hb => by simp [State.busy] at hb⟩

theorem State.Inv.exec_codeWord {i : Instr} {s t : State} (h : s.Inv) (hi : i.isCodeWord = true)
    (he : exec i s = .next t) : t.Inv := by
  obtain ⟨hb, ⟨-, rfl⟩ | ⟨-, rfl⟩ | ⟨k, -, rfl⟩ | ⟨cur, hcur, htail⟩⟩ := exec_cases_resolved h hi he
  · exact h.clearCommand hb
  · exact h.eoi hb
  · exact h.raise (by decide)
  · exact h.stringTail hb (State.resolved_length h (h.command hb) hcur) htail

/-! ### The host's moves and the invariant -/

/-- While no command runs the configuration may take any values, `OUT_CAP` apart, which is also given. -/
theorem State.Inv.configure {s t : State} (h : s.Inv) (hb : s.busy = false)
    (e : t = { s with usePred := t.usePred, inLen := t.inLen, rowStride := t.rowStride, spp := t.spp }) : t.Inv := by
  rw [e]
  exact h.of_not_busy rfl rfl rfl h.in_wf h.out_wf rfl rfl rfl rfl h.given_cap h.given_pos hb

theorem State.Inv.writeOutCap {s : State} (h : s.Inv) (hb : s.busy = false) (v : Word32) :
    { s.giveOut v.toNat with outCap := v }.Inv :=
  h.of_not_busy rfl rfl rfl h.in_wf h.out_wf rfl rfl rfl rfl (le_max_right _ _) (h.given_pos.trans (le_max_left _ _)) hb

theorem State.Inv.regWrite {s : State} (h : s.Inv) (off v : Word32) : (s.regWrite off v).Inv := by
  cases hb : s.busy with
  | true => rwa [State.regWrite_busy v hb]
  | false =>
    by_cases hoff : off ∈ [0x00#32, 0x08#32, 0x0C#32, 0x10#32, 0x14#32]
    · simp only [List.mem_cons, List.not_mem_nil, or_false] at hoff
      rcases hoff with rfl | rfl | rfl | rfl | rfl
      · rw [State.regWrite_ctrl v hb]; exact h.configure hb rfl
      · rw [State.regWrite_inLen v hb]; exact h.configure hb rfl
      · rw [State.regWrite_outCap v hb]; exact h.writeOutCap hb v
      · rw [State.regWrite_rowStride v hb]; exact h.configure hb rfl
      · rw [State.regWrite_spp v hb]; exact h.configure hb rfl
    · rwa [State.regWrite_unmapped v hoff]

theorem State.Inv.putIn {s : State} (h : s.Inv) (hb : s.busy = false) (a : Nat) (b : Byte) : (s.putIn a b).Inv :=
  h.of_not_busy rfl rfl rfl (Memory.wf_write h.in_wf) h.out_wf rfl rfl rfl rfl h.given_cap h.given_pos hb

theorem State.Inv.putOut {s : State} (h : s.Inv) (hb : s.busy = false) (a : Nat) (b : Byte) : (s.putOut a b).Inv :=
  h.of_not_busy rfl rfl rfl h.in_wf (Memory.wf_write h.out_wf) rfl rfl rfl rfl (h.given_cap.trans (le_max_left _ _))
    (h.given_pos.trans (le_max_left _ _)) hb

theorem State.Inv.execStart {s t : State} {w : Word32} (h : s.Inv) (he : execStart w s = .next t) : t.Inv := by
  rcases execStart_cases he with ⟨-, rfl⟩ | ⟨hb, -, hl, rfl⟩ | ⟨hb, -, -, rfl⟩ | ⟨hb, -, rfl⟩
  · exact h
  · exact (h.configure hb rfl : (s.setUsePred w).Inv).startValues hl
  · exact (h.configure hb rfl : (s.setUsePred w).Inv).congr rfl
  · exact h.configure hb rfl

end Sys2Proof.Machine

/-! PROOFS. The statements about the state of the block (10_state.md): its registers, START, its invariant, and how
`BIT_POS`, `NEXT_CODE` and `CODE_WIDTH` move. -/

namespace Sys2Proof.Machine

/-- Settles O40, by the cases of a step: the engine's run of a code word, START and a register write keep the invariant by
their own lemmas, and any other move of the host changes what the invariant does not speak of. -/
theorem everyStepKeepsTheInvariant : Obligations.EveryStepKeepsTheInvariant := by
  intro s t h he
  obtain ⟨-, hcase⟩ := step_cases he
  cases hcase with
  | starved ht hw hr => exact h.takeMove.raise (by decide)
  | ran _ ht hw hr hexec =>
    exact (h.takeMove.advance (State.engineTurn_iff.mp ht).1 hr).exec_codeWord (classify_isCodeWord _ _) hexec
  | quiet => exact h
  | started w rest _ hs hw hstart => exact h.takeMove.execStart hstart
  | wrote off v => exact h.takeMove.regWrite off v
  | loadedIn a b rest hs hb => exact h.takeMove.putIn hb a.toNat b
  | loadedOut a b rest hs hb => exact h.takeMove.putOut hb a.toNat b
  | read => exact h.congr rfl
  | drew => exact h.congr rfl
  | collected => exact h.congr rfl
  | declared => exact h.congr rfl
  | waited => exact h.takeMove

/-! ### `BIT_POS`, `NEXT_CODE` and `CODE_WIDTH` over an engine step -/

/-- The common tail neither reads nor moves the bit cursor (40_bit_reader.md R111). -/
theorem State.stringTail_bitPos {s t : State} {cur : Str} (h : s.stringTail cur = .next t) : t.bitPos = s.bitPos := by
  obtain ⟨-, ⟨-, rfl⟩ | ⟨-, -, -, rfl⟩ | ⟨-, -, -, rfl⟩ | ⟨-, -, rfl⟩⟩ := State.stringTail_cases h
  · rfl
  · simp
  · simp
  · simp

/-- No code word's meaning moves the bit cursor: the read before it has. -/
theorem exec_codeWord_bitPos {i : Instr} {s t : State} (hi : i.isCodeWord = true) (h : exec i s = .next t) :
    t.bitPos = s.bitPos := by
  obtain ⟨-, ⟨-, rfl⟩ | ⟨-, rfl⟩ | ⟨k, -, -, rfl⟩ | ⟨b, -, h⟩ | ⟨k, -, -, h⟩ | ⟨k, -, -, h⟩⟩ := exec_cases hi h
  · rfl
  · rfl
  · rfl
  · exact State.stringTail_bitPos h
  · exact State.stringTail_bitPos h
  · exact State.stringTail_bitPos h

/-- Settles O44: the read advances `BIT_POS` without wrapping, and the code word it read moves it no further. -/
theorem bitPosAdvancesByTheWidthRead : Obligations.BitPosAdvancesByTheWidthRead := by
  intro s t h ht he
  have c := h.command (State.engineTurn_iff.mp ht).1
  rcases h.engineTurn_cases ht he with rfl | ⟨hr, hexec⟩
  · exact .inr ⟨rfl, rfl, rfl⟩
  · left
    rw [exec_codeWord_bitPos (classify_isCodeWord _ _) hexec]
    exact State.advance_toNat (s := s.takeMove) c.bitPos_le hr

/-- `NEXT_CODE` and `CODE_WIDTH` from `s` to `t`, where the command goes on (42_decoder_engine.md R160, R164). -/
def WidthFollows (s t : State) : Prop :=
  (t.nextCode = s.nextCode ∧ t.codeWidth = s.codeWidth) ∨
    (t.nextCode.toNat = s.nextCode.toNat + 1 ∧ t.nextCode.toNat ≤ 4094 ∧
      t.codeWidth.toNat =
        if t.nextCode.toNat = 511 ∨ t.nextCode.toNat = 1023 ∨ t.nextCode.toNat = 2047 then s.codeWidth.toNat + 1
        else s.codeWidth.toNat) ∨
    (t.engState = .cleared ∧ t.nextCode = 258#12 ∧ t.codeWidth = 9#4)

/-- From a width that `NEXT_CODE` gives, the cap of the bump at 12 is never met (10_state.md R29). -/
theorem bumpWidth_of_widthOf (n : Nat) : bumpWidth (n + 1) (widthOf n) =
    if n + 1 = 511 ∨ n + 1 = 1023 ∨ n + 1 = 2047 then widthOf n + 1 else widthOf n := by
  simp only [bumpWidth, widthOf, Config.bump, Config.wMax, List.mem_cons, List.not_mem_nil, or_false]
  split_ifs <;> omega

theorem State.CommandInv.appendTail_widthFollows {s : State} {cur : Str} (c : s.CommandInv) (ha : s.canAppend) :
    WidthFollows s (s.appendTail cur) := by
  refine .inr (.inl ⟨State.appendTail_nextCode_toNat ha.1, ?_, ?_⟩)
  · rw [State.appendTail_nextCode_toNat ha.1]
    exact ha.1
  · rw [State.appendTail_codeWidth_toNat ha.1, State.appendTail_nextCode_toNat ha.1, c.width, bumpWidth_of_widthOf]

theorem State.raise_not_busy (s : State) (e : ErrKind) : (s.raise e).busy = false := rfl

theorem State.CommandInv.stringTail_widthFollows {s t : State} {cur : Str} (c : s.CommandInv)
    (h : s.stringTail cur = .next t) (hb : t.busy = true) : WidthFollows s t := by
  obtain ⟨-, ⟨-, rfl⟩ | ⟨-, -, -, rfl⟩ | ⟨-, -, ha, rfl⟩ | ⟨-, -, rfl⟩⟩ := State.stringTail_cases h
  · simp [State.raise_not_busy] at hb
  · simp [State.raise_not_busy] at hb
  · exact c.appendTail_widthFollows ha
  · exact .inl ⟨by simp, by simp⟩

theorem State.Inv.exec_widthFollows {i : Instr} {s t : State} (h : s.Inv) (hi : i.isCodeWord = true)
    (he : exec i s = .next t) (hb : t.busy = true) : WidthFollows s t := by
  obtain ⟨hbusy, ⟨-, rfl⟩ | ⟨-, rfl⟩ | ⟨k, -, rfl⟩ | ⟨cur, -, htail⟩⟩ := exec_cases_resolved h hi he
  · exact .inr (.inr ⟨rfl, rfl, rfl⟩)
  · cases hb
  · simp [State.raise_not_busy] at hb
  · exact (h.command hbusy).stringTail_widthFollows htail hb

/-- Settles O46: the read leaves `NEXT_CODE` and `CODE_WIDTH`, and each code word that lets the command go on keeps the
two together; a read that fails does not let it go on. -/
theorem nextCodeAndWidthMoveTogether : Obligations.NextCodeAndWidthMoveTogether := by
  intro s t h ht he hb
  rcases h.engineTurn_cases ht he with rfl | ⟨hr, hexec⟩
  · simp [State.raise_not_busy] at hb
  · have hread := h.takeMove.advance (State.engineTurn_iff.mp ht).1 hr
    exact hread.exec_widthFollows (classify_isCodeWord _ _) hexec hb

/-! ### START -/

/-- Settles O53: START reads only the host's setting, so it begins a command in both states, and writes every register
that the setting is not. -/
theorem startForgetsTheEarlierCommand : Obligations.StartForgetsTheEarlierCommand := by
  intro s s' t w hb hb' hw h hm he hc
  obtain ⟨hl, rfl⟩ := execStart_cleared hb he hc
  have hl' : (s'.setUsePred w).startLegal = true := by
    rw [State.startLegal_iff] at hl ⊢
    simpa [h.rowStride, h.spp, h.sppMax, h.overlap] using hl
  exact ⟨_, execStart_begins hb' hw hl', h.startValues hm w⟩

/-- Settles O11: the legal geometry lets START begin the command, and `TBL_RESET` writes the slots below 258 only. -/
theorem startBeginsACommand : Obligations.StartBeginsACommand := by
  intro s w hb hw hrow hspp hmax hover
  have hl : (s.setUsePred w).startLegal = true := State.startLegal_iff.mpr ⟨hrow, hspp, hmax, hover⟩
  have hfixed : ∀ k, k < 258 → (s.setUsePred w).startValues.tblEntry k = Table.unwritten k :=
    fun k hk => Table.read_resetFixed_below hk
  refine ⟨_, execStart_begins hb hw hl, rfl, rfl, rfl, rfl, rfl, rfl, rfl, rfl, rfl, fun k hk => ?_,
    hfixed 256 (by omega), hfixed 257 (by omega), fun k hk => Table.read_resetFixed_above hk, rfl, ?_⟩
  · rw [hfixed k (by omega), Table.unwritten, if_pos hk]
  · exact ⟨rfl, rfl, rfl, rfl, rfl, rfl, rfl, rfl, rfl, rfl, rfl, rfl, rfl⟩

/-! ### The host registers -/

/-- Settles O14, by the rows of the table; a word of at most 6 has no bit from 4 up. -/
theorem statusIsComputedFromEngineState : Obligations.StatusIsComputedFromEngineState := by
  intro s
  refine ⟨fun h => ?_, fun h => ?_, fun h => ?_, fun h he => ?_, fun h he => ?_, fun h he => ?_, fun h he => ?_,
    s.status_le, fun k hk => ?_⟩
  · simp only [State.status, h]
  · rcases h with h | h <;> simp only [State.status, h]
  · simp only [State.status, h]
  · simp only [State.status, h, he, ErrKind.code]
  · simp only [State.status, h, he, ErrKind.code]
  · simp only [State.status, h, he, ErrKind.code]
  · simp only [State.status, h, he, ErrKind.code]
  · have hpow : 2 ^ 4 ≤ 2 ^ k := Nat.pow_le_pow_right (by omega) hk
    have hle := s.status_le
    exact Nat.testBit_lt_two_pow (by omega)

/-- Settles O15, by the equations of `State.regRead`. -/
theorem hostReadsFollowTheRegisterMap : Obligations.HostReadsFollowTheRegisterMap := by
  intro s off rest hr hs
  refine ⟨s.regRead off, ?_, ?_, ?_, ?_, ?_, ?_, ?_, ?_, s.regRead_unmapped⟩
  · rw [step_read hr hs, State.takeMove_cons hs]
    rfl
  all_goals
    rintro rfl
    simp

/-- Settles O16, by the equations of `State.regWrite`. -/
theorem hostWritesFollowTheRegisterMap : Obligations.HostWritesFollowTheRegisterMap := by
  intro s off v rest hr hb hs
  have hstep : (off = 0x00#32 → v.getLsbD 0 = false) → step s = .next ({ s with script := rest }.regWrite off v) :=
    fun hv => by rw [step_write hr hs hv, State.takeMove_cons hs]
  have hb' : { s with script := rest }.busy = false := hb
  refine ⟨?_, ?_, ?_, ?_, ?_, fun h => ?_⟩
  · rintro rfl hv
    rw [hstep fun _ => hv, State.regWrite_ctrl v hb']
    rfl
  · rintro rfl
    rw [hstep (by simp), State.regWrite_inLen v hb']
  · rintro rfl
    rw [hstep (by simp), State.regWrite_outCap v hb']
    rfl
  · rintro rfl
    rw [hstep (by simp), State.regWrite_rowStride v hb']
  · rintro rfl
    rw [hstep (by simp), State.regWrite_spp v hb']
  · rw [hstep fun h0 => absurd h0 (by simp_all), State.regWrite_unmapped v h]

/-! ### Power-on -/

/-- Settles O38: the values that 10_state.md R37 gives are those of `State.powerOn`. -/
theorem powerOnValues : Obligations.PowerOnValues := by
  intro lMax sppMax
  exact ⟨rfl, rfl, rfl, rfl, rfl, rfl, rfl, rfl, rfl, State.regRead_bytesWritten _⟩

theorem State.powerOn_inv {lMax sppMax : Nat} (hl : 1 ≤ lMax) (hs : 1 ≤ sppMax) : (State.powerOn lMax sppMax).Inv :=
  ⟨hl, hs, List.length_replicate, rfl, rfl, rfl, by simp [State.powerOn], fun _ => rfl, le_rfl, le_rfl,
    fun hb => by cases hb⟩

/-- At power-on no command runs, so that what is asked of a running command holds. -/
theorem State.powerOn_invariants {lMax sppMax : Nat} (hl : 1 ≤ lMax) (hs : 1 ≤ sppMax) :
    (State.powerOn lMax sppMax).Inv ∧ (State.powerOn lMax sppMax).LaneInv ∧ (State.powerOn lMax sppMax).LengthBound :=
  ⟨State.powerOn_inv hl hs, fun hb => (by cases hb), fun hb => (by cases hb)⟩

/-- Settles O39: `State.reset` is the power-on state at legal parameters. -/
theorem invariantsHoldAtPowerOn : Obligations.InvariantsHoldAtPowerOn :=
  ⟨fun _ _ hl hs => State.powerOn_invariants hl hs, State.powerOn_invariants (by decide) (by decide)⟩

end Sys2Proof.Machine

/-! PROOFS. The statements about the memories (20_memory.md): where the engine writes `OUT`, what the host reads of it, and
what a lowered `OUT_CAP` leaves readable. -/

namespace Sys2Proof.Machine

/-! ### The engine writes `OUT` in order -/

/-- `OUT_POS` grows within `OUT_CAP`, and of the two memories only the bytes it passed are written (20_memory.md R63,
R64). -/
def WritesInOrder (s t : State) : Prop :=
  s.outPos.toNat ≤ t.outPos.toNat ∧ t.outPos.toNat ≤ s.outCap.toNat ∧
    (∀ a, a < s.outPos.toNat ∨ t.outPos.toNat ≤ a → t.outByte a = s.outByte a) ∧ t.inMem = s.inMem

theorem State.CommandInv.writesInOrder_refl {s : State} (c : s.CommandInv) : WritesInOrder s s :=
  ⟨le_rfl, c.outPos_le, fun _ _ => rfl, rfl⟩

/-- A string that fits is written at the offsets that `OUT_POS` passes. -/
theorem State.fits.emitAll_writesInOrder {s : State} {cur : Str} (hf : s.fits cur) : WritesInOrder s (s.emitAll cur) := by
  have hpos := State.emitAll_outPos hf.lt
  exact ⟨by omega, hpos.trans_le hf, fun a ha => State.emitAll_others hf.lt (by omega), s.emitAll_inMem cur⟩

/-- Of the common tail only `EMIT` writes `OUT`, and only a string that fits (43_predictor.md R193). -/
theorem State.CommandInv.stringTail_writesInOrder {s t : State} {cur : Str} (c : s.CommandInv)
    (h : s.stringTail cur = .next t) : WritesInOrder s t := by
  obtain ⟨-, ⟨-, rfl⟩ | ⟨hf, -, -, rfl⟩ | ⟨hf, -, -, rfl⟩ | ⟨hf, -, rfl⟩⟩ := State.stringTail_cases h
  · exact c.writesInOrder_refl
  · exact hf.emitAll_writesInOrder
  · exact hf.emitAll_writesInOrder
  · exact hf.emitAll_writesInOrder

theorem State.Inv.exec_writesInOrder {i : Instr} {s t : State} (h : s.Inv) (hi : i.isCodeWord = true)
    (he : exec i s = .next t) : WritesInOrder s t := by
  obtain ⟨hb, hcase⟩ := exec_cases_resolved h hi he
  have c := h.command hb
  obtain ⟨-, rfl⟩ | ⟨-, rfl⟩ | ⟨k, -, rfl⟩ | ⟨cur, -, htail⟩ := hcase
  · exact c.writesInOrder_refl
  · exact c.writesInOrder_refl
  · exact c.writesInOrder_refl
  · exact c.stringTail_writesInOrder htail

/-- Settles O45: a read of a code word, whether it fails or not, writes neither memory, and the code word it gives writes
`OUT` in order. -/
theorem outputIsWrittenInOrder : Obligations.OutputIsWrittenInOrder := by
  intro s t h ht he
  have hb := (State.engineTurn_iff.mp ht).1
  rcases h.engineTurn_cases ht he with rfl | ⟨hr, hexec⟩
  · exact (h.command hb).writesInOrder_refl
  · exact (h.takeMove.advance hb hr).exec_writesInOrder (classify_isCodeWord _ _) hexec

/-! ### The host reads `OUT` -/

theorem step_readOut {s : State} {a : Word32} {rest : List HostMove} (hr : s.refusedMark = false)
    (hs : s.script = .readOut a :: rest) : step s = s.takeMove.readOut a.toNat := by
  simp only [step, State.nextAction, hr, hs, Bool.false_eq_true, if_false, State.hostAction, Action.outcome]

section Reads

variable {s : State} {a : Word32} {rest : List HostMove}

theorem step_readOut_busy (hr : s.refusedMark = false) (hs : s.script = .readOut a :: rest) (ha : a.toNat < s.outGiven)
    (hb : s.busy = true) : step s = .next { s with
      script := rest, hostData := (Config.freeOutByte s.draws).setWidth 32, draws := s.draws + 1 } := by
  simp only [step_readOut hr hs, State.readOut, State.takeMove_outGiven, State.takeMove_busy, ha, hb, if_true]
  rw [State.takeMove_cons hs]
  rfl

theorem step_readOut_stored (hr : s.refusedMark = false) (hs : s.script = .readOut a :: rest)
    (ha : a.toNat < s.outGiven) (hb : s.busy = false) :
    step s = .next { s with script := rest, hostData := (s.outByte a.toNat).setWidth 32 } := by
  simp only [step_readOut hr hs, State.readOut, State.takeMove_outGiven, State.takeMove_busy, ha, hb, if_true,
    Bool.false_eq_true, if_false]
  rw [State.takeMove_cons hs]
  rfl

theorem step_readOut_outside (hr : s.refusedMark = false) (hs : s.script = .readOut a :: rest)
    (ha : s.outGiven ≤ a.toNat) : step s = .fault .outsideOut := by
  simp only [step_readOut hr hs, State.readOut, State.takeMove_outGiven, not_lt.mpr ha, if_false]

end Reads

/-- In a state that meets the invariant the host has given every byte below `OUT_CAP` and every byte written. -/
theorem State.Inv.given {s : State} {a : Nat} (h : s.Inv) (ha : a < s.outCap.toNat ∨ a < s.outPos.toNat) :
    a < s.outGiven :=
  ha.elim (fun ha => ha.trans_le h.given_cap) (fun ha => ha.trans_le h.given_pos)

/-- Settles O17, by the three answers of a read of `OUT`. -/
theorem hostReadsOfOutput : Obligations.HostReadsOfOutput := by
  intro s a rest hr hs
  exact ⟨step_readOut_busy hr hs, step_readOut_stored hr hs, State.Inv.given, step_readOut_outside hr hs⟩

/-! ### The host lowers `OUT_CAP` -/

theorem core_run_succ {s t : State} (h : step s = .next t) (k : Nat) : core.run (k + 1) s = core.run k t := by
  simp only [Host.Core.run, core, h]

/-- Settles O55: the write of `OUT_CAP` takes nothing from what the host has given, in which the invariant puts every
byte below `OUT_POS`. -/
theorem loweringOutCapLosesNoByte : Obligations.LoweringOutCapLosesNoByte := by
  intro s v a rest h hr hb hs ha
  obtain ⟨-, -, houtCap, -⟩ := hostWritesFollowTheRegisterMap s _ v _ hr hb hs
  have hwrite := houtCap rfl
  have hgiven : a.toNat < max s.outGiven v.toNat := (h.given (.inr ha)).trans_le (le_max_left _ _)
  refine ⟨_, (core_run_succ hwrite 1).trans (core_run_succ (step_readOut_stored (a := a) (rest := rest) ?_ ?_ ?_ ?_) 0),
    rfl, rfl, rfl⟩
  exacts [hr, rfl, hgiven, hb]

end Sys2Proof.Machine

/-! SUPPORT. The codec of code words, said once for every instruction and width: the class of a code that an instruction
encodes to, what the decoder accepts and what the encoder gives (30_encoding.md R80, R81, R84). -/

namespace Sys2Proof

/-- An instruction with a code is a code word, not a host write (30_encoding.md R80). -/
theorem isCodeWord_of_encodeCode {i : Instr} {c : Code} (h : encodeCode i = some c) : i.isCodeWord = true := by
  cases i with
  | start w => cases h
  | _ => rfl

/-- The statement made per instruction holds of every instruction. -/
theorem codeRoundTrip (i : Instr) : Laws.CodeRoundTrip.Statement i := by
  cases i with
  | lit b => exact Laws.CodeRoundTrip.lit b
  | clear => exact Laws.CodeRoundTrip.clear
  | eoi => exact Laws.CodeRoundTrip.eoi
  | ref k => exact Laws.CodeRoundTrip.ref k
  | pend k => exact Laws.CodeRoundTrip.pend k
  | invalid k => exact Laws.CodeRoundTrip.invalid k
  | start w => exact Laws.CodeRoundTrip.start w

/-- The code of an instruction that is well formed in a legal context has that instruction's class there. -/
theorem classify_of_encodeCode {x : Ctx} {i : Instr} {c : Code} (hx : x.legal = true) (hi : i.wfIn x = true)
    (hc : encodeCode i = some c) : classify x c = i := by
  obtain ⟨c', hc', hclass⟩ := (codeRoundTrip i x hx hi).1 (isCodeWord_of_encodeCode hc)
  rw [hc, Option.some.injEq] at hc'
  rwa [hc']

theorem legalWidth_iff {w : Nat} : legalWidth w = true ↔ 9 ≤ w ∧ w ≤ 12 := by
  simp only [legalWidth, Bool.and_eq_true, decide_eq_true_eq]

/-- The encoder writes the code at the width asked for, where it fits. -/
theorem encode_of_encodeCode {w : Nat} {i : Instr} {c : Code} (hw : legalWidth w = true) (hi : encodeCode i = some c)
    (hc : c.toNat < 2 ^ w) : encode w i = some (codeBits w c.toNat) := by
  simp only [encode, hi, hw, hc, decide_true, Bool.and_true, if_true]

/-- The decoder accepts exactly a word of a legal width and whatever follows it, and reads the class of the word's
code. -/
theorem decodeBits_eq_ok_iff {x : Ctx} {w : Nat} {bits rest : List Bool} {i : Instr} :
    decodeBits x w bits = .ok (i, rest) ↔ legalWidth w = true ∧
      ∃ word, word.length = w ∧ bits = word ++ rest ∧ classify x (BitVec.ofNat 12 (codeOfBits word)) = i := by
  constructor
  · intro h
    simp only [decodeBits] at h
    split at h
    · next hw =>
      split at h
      · next hlen =>
        cases h
        exact ⟨hw, bits.take w, List.length_take_of_le hlen, (List.take_append_drop w bits).symm, rfl⟩
      · cases h
    · cases h
  · rintro ⟨hw, word, rfl, rfl, rfl⟩
    simp [decodeBits, hw]

/-- A word of a legal width holds a code of 12 bits with nothing cut off. -/
theorem toNat_code_of_word {word : List Bool} (hw : legalWidth word.length = true) :
    (BitVec.ofNat 12 (codeOfBits word)).toNat = codeOfBits word := by
  have hpow := Nat.pow_le_pow_right (n := 2) (by omega) (legalWidth_iff.mp hw).2
  rw [BitVec.toNat_ofNat, Nat.mod_eq_of_lt ((codeOfBits_lt word).trans_le hpow)]

/-- A code that fits in the width is the code of its own bits. -/
theorem code_of_codeBits {w : Nat} {c : Code} (hc : c.toNat < 2 ^ w) :
    BitVec.ofNat 12 (codeOfBits (codeBits w c.toNat)) = c := by
  rw [codeOfBits_codeBits, Nat.mod_eq_of_lt hc, BitVec.ofNat_toNat, BitVec.setWidth_eq]

end Sys2Proof

/-! PROOFS. The statements about the encoding (30_encoding.md): the two round trips, the classes, and what the assembler
tracks. -/

namespace Sys2Proof

/-! ### The round trips -/

/-- Settles O4: the bits of the code read back as the code, and its class is the instruction. -/
theorem decodeOfEncodeIsTheInstruction : Obligations.DecodeOfEncodeIsTheInstruction := by
  intro x i hx hi
  refine ⟨fun c w hc h9 h12 hfits => ?_, fun hword => ?_, (codeRoundTrip i x hx hi).2⟩
  · have hw : legalWidth w = true := legalWidth_iff.mpr ⟨h9, h12⟩
    refine ⟨_, encode_of_encodeCode hw hc hfits, codeBits_length w _, fun rest => ?_⟩
    refine decodeBits_eq_ok_iff.mpr ⟨hw, _, codeBits_length w _, rfl, ?_⟩
    rw [code_of_codeBits hfits]
    exact classify_of_encodeCode hx hi hc
  · obtain ⟨c, hc, -⟩ := (codeRoundTrip i x hx hi).1 hword
    exact ⟨c, hc⟩

/-- Settles O5: the class of a code is well formed and has that code, whose bits are the word read. -/
theorem encodeOfDecodeIsTheCodeWord : Obligations.EncodeOfDecodeIsTheCodeWord := by
  intro x w bits rest i hx h
  obtain ⟨hw, word, rfl, rfl, rfl⟩ := decodeBits_eq_ok_iff.mp h
  obtain ⟨hwf, hcode⟩ := classify_wfIn hx (BitVec.ofNat 12 (codeOfBits word))
  have hnat := toNat_code_of_word hw
  have hfits : (BitVec.ofNat 12 (codeOfBits word)).toNat < 2 ^ word.length := hnat.trans_lt (codeOfBits_lt word)
  refine ⟨hwf, word, ?_, rfl⟩
  rw [encode_of_encodeCode hw hcode hfits, hnat, codeBits_codeOfBits]

/-! ### The classes -/

/-- 30_encoding.md R84 row 6. -/
theorem classify_above {x : Ctx} {c : Code} (hx : x.legal = true) (h : x.nextCode < c.toNat) :
    classify x c = .invalid c :=
  classify_of_encodeCode hx (by simp [Instr.wfIn, h]) rfl

/-- Settles O2: in each row the instruction is well formed and its code is the one classified. -/
theorem classificationFollowsTheTable : Obligations.ClassificationFollowsTheTable := by
  intro x c hx
  refine ⟨fun h => ?_, fun h => ?_, fun h hr => ?_, fun h hr => ?_, fun h => ?_, fun h1 h2 => ?_, classify_above hx⟩
  · exact classify_of_encodeCode hx rfl (congrArg some (BitVec.eq_of_toNat_eq h.symm))
  · exact classify_of_encodeCode hx rfl (congrArg some (BitVec.eq_of_toNat_eq h.symm))
  · exact classify_of_encodeCode hx (by simp [Instr.wfIn, h, hr]) rfl
  · exact classify_of_encodeCode hx (by simp [Instr.wfIn, h, hr]) rfl
  · have hb : (c.setWidth 8).toNat = c.toNat := by
      rw [BitVec.toNat_setWidth]
      omega
    have hcode : (c.setWidth 8).setWidth 12 = c := by
      apply BitVec.eq_of_toNat_eq
      rw [BitVec.toNat_setWidth, hb]
      omega
    exact ⟨c.setWidth 8, hb, classify_of_encodeCode hx rfl (congrArg some hcode)⟩
  · exact classify_of_encodeCode hx (by simp [Instr.wfIn, h1, h2]) rfl

/-- The width of a running command grows before `NEXT_CODE` reaches its all-ones code (30_encoding.md R85). -/
theorem Machine.lt_allOnes_widthOf {n : Nat} (h : n ≤ 4094) : n < 2 ^ Machine.widthOf n - 1 := by
  simp only [Machine.widthOf]
  split_ifs <;> omega

/-- Settles O3: the width that `NEXT_CODE` gives puts the all-ones code above `NEXT_CODE`. -/
theorem allOnesCodeIsInvalid : Obligations.AllOnesCodeIsInvalid := by
  intro s c h hb hc
  have hcommand := h.command hb
  refine classify_above hcommand.ctx_legal ?_
  rw [hc, hcommand.width]
  exact Machine.lt_allOnes_widthOf hcommand.nextCode_le

/-- Settles O6: each word, its class read off the bits. -/
theorem writtenOutWordsDecode : Obligations.WrittenOutWordsDecode :=
  ⟨rfl, rfl, rfl, rfl, rfl, rfl, rfl, Machine.decodeCtrlWrite_ok rfl, Machine.decodeCtrlWrite_error rfl⟩

end Sys2Proof

namespace Sys2Proof.Machine

/-! ### The assembler and the engine -/

/-- Every code word that stands for a string moves the assembler alike (42_decoder_engine.md R158). -/
theorem after_of_resolved {s : State} {i : Instr} {cur : Str} (a : AsmState) (h : s.resolved i = some cur) :
    a.after i = a.afterString := by
  cases i with
  | lit b => rfl
  | ref k => rfl
  | pend k => rfl
  | _ => cases h

/-- An append and its width bump are what the assembler tracks in `RUNNING` (42_decoder_engine.md R160). -/
theorem State.appendTail_asm {s : State} {cur : Str} (hr : s.hasPrev = true) (ha : s.canAppend) :
    (s.appendTail cur).asm = s.asm.afterString := by
  have hlt : s.asm.ctx.nextCode < Config.tableFull := ha.1
  have hrun : s.asm.ctx.running = true := hr
  rw [AsmState.afterString, if_pos hrun, if_pos hlt]
  simp only [State.asm, State.ctx, State.appendTail_nextCode_toNat ha.1, State.appendTail_codeWidth_toNat ha.1]
  rfl

/-- After a reset the first string is remembered and nothing appended (42_decoder_engine.md R159). -/
theorem State.remember_asm {s : State} {cur : Str} (hr : s.hasPrev = false) :
    ((s.emitAll cur).remember cur).asm = s.asm.afterString := by
  have hrun : ¬ s.asm.ctx.running = true := Bool.eq_false_iff.mp hr
  rw [AsmState.afterString, if_neg hrun]
  simp [State.asm, State.ctx, State.hasPrev]

/-- The common tail, where the command goes on, moves the context and the width as the assembler does. -/
theorem State.stringTail_asm {s t : State} {cur : Str} (h : s.stringTail cur = .next t) (hb : t.busy = true) :
    t.asm = s.asm.afterString := by
  obtain ⟨-, ⟨-, rfl⟩ | ⟨-, -, -, rfl⟩ | ⟨-, hr, ha, rfl⟩ | ⟨-, hr, rfl⟩⟩ := State.stringTail_cases h
  · simp [State.raise_not_busy] at hb
  · simp [State.raise_not_busy] at hb
  · exact State.appendTail_asm hr ha
  · exact State.remember_asm hr

/-- Settles O54: a `CLEAR` resets both, a string code moves both by the common tail, and no other code word lets the
command go on. -/
theorem assemblerTracksTheEngine : Obligations.AssemblerTracksTheEngine := by
  intro s t i h hi he hb
  obtain ⟨-, ⟨rfl, rfl⟩ | ⟨-, rfl⟩ | ⟨k, -, rfl⟩ | ⟨cur, hcur, htail⟩⟩ := exec_cases_resolved h hi he
  · rfl
  · cases hb
  · simp [State.raise_not_busy] at hb
  · rw [after_of_resolved _ hcur]
    exact State.stringTail_asm htail hb

end Sys2Proof.Machine

/-! PROOFS. The statements about the Bit Reader (40_bit_reader.md): what `READCODE` returns, and a step with no whole code
word left. -/

namespace Sys2Proof.Machine

@[simp] theorem State.window_length (s : State) (w : Nat) : (s.window w).length = w := by
  simp [State.window]

/-- A read of a legal width gives the value of its window with nothing cut off (30_encoding.md R81). -/
theorem State.toNat_code_window {s : State} {w : Nat} (hw : legalWidth w = true) :
    (BitVec.ofNat 12 (codeOfBits (s.window w))).toNat =
      ∑ j ∈ Finset.range w, (s.inBit (s.bitPos.toNat + j)).toNat * 2 ^ (w - 1 - j) := by
  rw [toNat_code_of_word (by rwa [State.window_length]), State.window_code]

/-- Settles O1: too few bits raise the error; else the code is the sum of the window's bits, which 12 bits hold, and
`BIT_POS`, which ends within the stream, does not wrap. -/
theorem readCodeIsMostSignificantBitFirst : Obligations.ReadCodeIsMostSignificantBitFirst := by
  intro s w h9 h12
  refine ⟨fun hfew => State.readCode_error (by omega), fun henough => ?_⟩
  have hbits : w ≤ 8 * s.inLen.toNat - s.bitPos.toNat := by omega
  have hpos : s.bitPos.toNat ≤ 8 * s.inLen.toNat := by omega
  exact ⟨_, _, State.readCode_ok hbits, State.toNat_code_window (legalWidth_iff.mpr ⟨h9, h12⟩),
    State.advance_toNat hpos hbits, rfl⟩

/-- Settles O8: the width is legal and no whole code word remains, so the engine's turn raises the error. -/
theorem stepWithoutAWholeCodeWordFails : Obligations.StepWithoutAWholeCodeWordFails := by
  intro s hturn h9 h12 hfew
  have hnone : ¬ s.codeRemains := by
    simp only [State.codeRemains]
    omega
  exact step_starves hturn (legalWidth_iff.mpr ⟨h9, h12⟩) hnone

end Sys2Proof.Machine

/-! SUPPORT. What a step can do to the Code Table (41_code_table.md): leave it, run a code word on it, or reset it at
START. -/

namespace Sys2Proof.Machine

/-- A host write of a register leaves the Code Table and `PREV`, and starts no command (44_host_command.md R211). -/
theorem State.regWrite_sameTable (s : State) (off v : Word32) :
    SameTable s (s.regWrite off v) ∧ (s.regWrite off v).busy = s.busy := by
  simp only [State.regWrite]
  split_ifs <;> exact ⟨⟨rfl, rfl, rfl, rfl⟩, rfl⟩

/-- Only a code word and START change the Code Table or `PREV`, and nothing but START begins a command. -/
theorem step_table_cases {s t : State} (he : step s = .next t) :
    (SameTable s t ∧ (t.busy = true → s.busy = true)) ∨
      (s.busy = true ∧ s.codeRemains ∧
        exec (classify s.ctx s.codeHere) (s.takeMove.advance s.codeWidth.toNat) = .next t) ∨
      ∃ w, t = (s.takeMove.setUsePred w).startValues := by
  obtain ⟨-, hcase⟩ := step_cases he
  cases hcase with
  | ran _ ht hw hr hexec => exact .inr (.inl ⟨(State.engineTurn_iff.mp ht).1, hr, hexec⟩)
  | started w rest _ hs hw hstart =>
    rcases execStart_cases hstart with ⟨-, rfl⟩ | ⟨-, -, -, rfl⟩ | ⟨-, -, -, rfl⟩ | ⟨-, -, rfl⟩
    · exact .inl ⟨⟨rfl, rfl, rfl, rfl⟩, id⟩
    · exact .inr (.inr ⟨w, rfl⟩)
    · exact .inl ⟨⟨rfl, rfl, rfl, rfl⟩, id⟩
    · exact .inl ⟨⟨rfl, rfl, rfl, rfl⟩, id⟩
  | wrote off v =>
    obtain ⟨htable, hbusy⟩ := s.takeMove.regWrite_sameTable off v
    exact .inl ⟨⟨htable.nextCode, htable.codeWidth, htable.entry, htable.prev⟩, fun hb => hbusy ▸ hb⟩
  | starved => exact .inl ⟨⟨rfl, rfl, rfl, rfl⟩, fun hb => by simp [State.raise_not_busy] at hb⟩
  | _ => exact .inl ⟨⟨rfl, rfl, rfl, rfl⟩, id⟩

/-- A slot from 258 up stands over a reset of the table (41_code_table.md R130). -/
theorem tblEntry_of_reset {s t : State} (h : t.entry = Table.resetFixed s.entry) {k : Nat} (hk : 258 ≤ k) :
    t.tblEntry k = s.tblEntry k := by
  rw [State.tblEntry, h]
  exact Table.read_resetFixed_above hk

theorem SameTable.tblEntry {s t : State} (h : SameTable s t) (k : Nat) : t.tblEntry k = s.tblEntry k :=
  congrArg (Table.read · k) h.entry

end Sys2Proof.Machine

/-! SUPPORT. Two states that differ in stale slots of the Code Table only (41_code_table.md R130, R132): what keeps them
so, and that every step answers alike in both. -/

namespace Sys2Proof.Machine

/-- The state with another Code Table. -/
def State.withEntry (s : State) (e : List (Nat × Str)) : State := { s with entry := e }

/-- `EMIT` neither reads nor writes the table (43_predictor.md R191). -/
theorem State.emitAll_withEntry (s : State) (e : List (Nat × Str)) (str : Str) :
    (s.withEntry e).emitAll str = (s.emitAll str).withEntry e := by
  induction str generalizing s with
  | nil => rfl
  | cons b t ih =>
    have hbyte : (s.withEntry e).emitByte b = (s.emitByte b).withEntry e := rfl
    rw [State.emitAll_cons, hbyte, ih, State.emitAll_cons]

/-- A register write neither reads nor writes the table (44_host_command.md R211). -/
theorem State.regWrite_withEntry (s : State) (e : List (Nat × Str)) (off v : Word32) :
    (s.withEntry e).regWrite off v = (s.regWrite off v).withEntry e := by
  have hb : (s.withEntry e).busy = s.busy := rfl
  simp only [State.regWrite, hb, apply_ite (State.withEntry · e)]
  rfl

/-- Two outcomes that the host cannot tell apart: next states that differ in stale slots only, or the same stop. -/
inductive Alike : Host.Outcome State Fault Refusal → Host.Outcome State Fault Refusal → Prop where
  | next {t t' : State} (h : AgreeButStale t t') : Alike (.next t) (.next t')
  | fault (r : Fault) : Alike (.fault r) (.fault r)
  | refused (r : Refusal) : Alike (.refused r) (.refused r)

theorem Alike.answers {o o' : Host.Outcome State Fault Refusal} (h : Alike o o') :
    (∀ t, o = .next t → ∃ t', o' = .next t' ∧ AgreeButStale t t') ∧ (∀ r, o = .fault r → o' = .fault r) ∧
      (∀ r, o = .refused r → o' = .refused r) := by
  cases h with
  | next h => simpa using h
  | fault r => simp
  | refused r => simp

/-! ### A step by what comes next -/

/-- A step with no host move left. -/
theorem step_quiet {s : State} (hr : s.refusedMark = false) (hs : s.script = []) :
    step s = s.quietAction.outcome := by
  simp only [step, State.nextAction, hr, hs, Bool.false_eq_true, if_false]

/-- A step that takes the host's next move. -/
theorem step_move {s : State} {m : HostMove} {rest : List HostMove} (hr : s.refusedMark = false)
    (hs : s.script = m :: rest) : step s = (s.takeMove.hostAction m).outcome := by
  simp only [step, State.nextAction, hr, hs, Bool.false_eq_true, if_false]

/-! ### Updates -/

theorem AgreeButStale.eq_withEntry {s s' : State} (h : AgreeButStale s s') : s' = s.withEntry s'.entry :=
  (congrArg (State.withEntry · s'.entry) h.rest :)

section Updates

variable {s : State} {e : List (Nat × Str)}

/-- An update that maps the table by `g`, and for the rest does not read it, leaves the agreement where `g` leaves equal
slots. -/
theorem AgreeButStale.of_commutes (f : State → State) (g : List (Nat × Str) → List (Nat × Str))
    (hf : ∀ e, f (s.withEntry e) = (f s).withEntry (g e))
    (hlive : (f s).busy = true → ∀ k, k < (f s).nextCode.toNat → Table.read (g e) k = Table.read (g s.entry) k) :
    AgreeButStale (f s) (f (s.withEntry e)) := by
  have hentry : (f s).entry = g s.entry := (congrArg State.entry (hf s.entry) :)
  rw [hf]
  refine ⟨rfl, fun hb k hk => ?_⟩
  rw [State.tblEntry, State.tblEntry, hentry]
  exact hlive hb k hk

/-- A reset of the table leaves no slot below 258 to differ in (41_code_table.md R130). -/
theorem AgreeButStale.reset (f : State → State)
    (hf : ∀ e, f (s.withEntry e) = (f s).withEntry (Table.resetFixed e)) (hn : (f s).nextCode = 258#12) :
    AgreeButStale (f s) (f (s.withEntry e)) :=
  .of_commutes f Table.resetFixed hf fun _ k hk => by
    have hlt : k < 258 := by simpa [hn] using hk
    rw [Table.read_resetFixed_below hlt, Table.read_resetFixed_below hlt]

variable (h : AgreeButStale s (s.withEntry e))
include h

/-- An update that neither reads nor writes the table, leaves `NEXT_CODE` and begins no command keeps the agreement. -/
theorem AgreeButStale.update (f : State → State) (hf : ∀ e, f (s.withEntry e) = (f s).withEntry e)
    (hn : (f s).nextCode = s.nextCode) (hb : (f s).busy = true → s.busy = true) :
    AgreeButStale (f s) (f (s.withEntry e)) :=
  .of_commutes f id hf fun hbusy k hk => h.live (hb hbusy) k (hn ▸ hk)

/-- `EMIT`, and after it an update that does not touch the table, keeps the agreement while a command runs. -/
theorem AgreeButStale.emitThen {cur : Str} (f : State → State) (hb : s.busy = true)
    (hf : ∀ u e, f (u.withEntry e) = (f u).withEntry e) (hn : ∀ u, (f u).nextCode = u.nextCode) :
    AgreeButStale (f (s.emitAll cur)) (f ((s.withEntry e).emitAll cur)) :=
  h.update (fun u => f (u.emitAll cur)) (fun e => by rw [State.emitAll_withEntry, hf])
    ((hn _).trans (s.emitAll_nextCode cur)) fun _ => hb

/-- An append stores the same string in both tables, in the first slot that may have differed (41_code_table.md R135). -/
theorem AgreeButStale.appendTail {cur : Str} (hb : s.busy = true) (hw : Table.wf s.entry = true)
    (hw' : Table.wf e = true) (ha : s.canAppend) :
    AgreeButStale (s.appendTail cur) ((s.withEntry e).appendTail cur) := by
  refine .of_commutes (·.appendTail cur) (Table.write · s.nextCode.toNat (s.prev ++ [cur.headD 0#8])) (fun e => ?_)
    fun _ k hk => ?_
  · simp only [State.appendTail, State.emitAll_withEntry]
    rw [← s.emitAll_nextCode cur]
    rfl
  · rw [State.appendTail_nextCode_toNat ha.1] at hk
    by_cases hk' : k = s.nextCode.toNat
    · rw [hk', Table.read_write_same hw, Table.read_write_same hw']
    · rw [Table.read_write_other hk', Table.read_write_other hk']
      exact h.live hb k (by omega)

end Updates

/-! ### Code words -/

theorem Alike.whenEnabled {s : State} {e : List (Nat × Str)} {o o' : Host.Outcome State Fault Refusal}
    (h : Alike o o') : Alike (s.whenEnabled o) ((s.withEntry e).whenEnabled o') := by
  have hb : (s.withEntry e).busy = s.busy := rfl
  simp only [State.whenEnabled, hb]
  split
  · exact h
  · exact .refused _

theorem Alike.guarded {c : Prop} [Decidable c] {o o' : Host.Outcome State Fault Refusal} {r : Refusal}
    (h : c → Alike o o') : Alike (if c then o else .refused r) (if c then o' else .refused r) := by
  split
  · next hc => exact h hc
  · exact .refused r

section Exec

variable {s : State} {e : List (Nat × Str)} (h : AgreeButStale s (s.withEntry e)) (hb : s.busy = true)
include h hb

/-- The common tail reads no slot, and writes the same string in both tables. -/
theorem AgreeButStale.stringTail_alike (hw : Table.wf s.entry = true) (hw' : Table.wf e = true)
    {cur cur' : Str} (hcur : cur' = cur) : Alike (s.stringTail cur) ((s.withEntry e).stringTail cur') := by
  subst cur'
  by_cases hc : cur = []
  · rw [hc]
    exact .refused _
  by_cases hf : s.fits cur
  swap
  · rw [State.stringTail_overflow hc hf, State.stringTail_overflow (s := s.withEntry e) hc hf]
    exact .next (h.update (·.raise .outputOverflow) (fun _ => rfl) rfl fun _ => hb)
  cases hr : s.hasPrev with
  | false =>
    rw [State.stringTail_first hc hf hr, State.stringTail_first (s := s.withEntry e) hc hf hr]
    exact .next (h.emitThen (·.remember cur) hb (fun _ _ => rfl) fun _ => rfl)
  | true =>
    by_cases ha : s.canAppend
    · rw [State.stringTail_append hc hf hr ha, State.stringTail_append (s := s.withEntry e) hc hf hr ha]
      exact .next (h.appendTail hb hw hw' ha)
    · rw [State.stringTail_full hc hf hr ha, State.stringTail_full (s := s.withEntry e) hc hf hr ha]
      exact .next (h.emitThen (·.raise .tableOverflow) hb (fun _ _ => rfl) fun _ => rfl)

/-- A live slot holds the same string in both states (41_code_table.md R132). -/
theorem AgreeButStale.tblEntry_eq {k : Nat} (hk : k < s.nextCode.toNat) : (s.withEntry e).tblEntry k = s.tblEntry k :=
  h.live hb k hk

/-- A code word is of the same class in both states, and stands for the same string: a live slot's, or one that `PREV`
gives. -/
theorem AgreeButStale.exec_alike (hv : s.Inv) (hw' : Table.wf e = true) {i : Instr} (hi : i.isCodeWord = true) :
    Alike (exec i s) (exec i (s.withEntry e)) := by
  have hge := (hv.command hb).nextCode_ge
  have htail {cur cur'} := h.stringTail_alike hb hv.entry_wf hw' (cur := cur) (cur' := cur')
  cases i with
  | lit b =>
    have hlive : b.toNat < s.nextCode.toNat := b.isLt.trans_le (by omega)
    exact .whenEnabled (htail (h.tblEntry_eq hb hlive))
  | clear => exact .whenEnabled (.next (.reset State.clearCommand (fun _ => rfl) rfl))
  | eoi => exact .whenEnabled (.next (h.update (fun u => { u with engState := .done }) (fun _ => rfl) rfl fun _ => hb))
  | ref k => exact .whenEnabled (.guarded fun hk => htail (h.tblEntry_eq hb (State.isRef_iff.mp hk).2))
  | pend k => exact .whenEnabled (.guarded fun _ => htail rfl)
  | invalid k =>
    exact .whenEnabled (.guarded fun _ => .next (h.update (·.raise .invalidCode) (fun _ => rfl) rfl fun _ => hb))
  | start w => cases hi

end Exec

/-! ### A step -/

section Step

variable {s : State} {e : List (Nat × Str)} (h : AgreeButStale s (s.withEntry e))
include h

/-- The engine's turn: both read the same code, and either both lack bits or both run it. -/
theorem AgreeButStale.engineTurn_alike (hv : s.Inv) (hw' : Table.wf e = true) (ht : s.engineTurn = true) :
    Alike (step s) (step (s.withEntry e)) := by
  have hb := (State.engineTurn_iff.mp ht).1
  have hw := (hv.command hb).widthLegal
  by_cases hr : s.codeRemains
  · rw [step_runs ht hw hr, step_runs (s := s.withEntry e) ht hw hr]
    have hread := h.update (·.takeMove.advance s.codeWidth.toNat) (fun _ => rfl) rfl id
    exact hread.exec_alike hb (hv.takeMove.advance hb hr) hw' (classify_isCodeWord _ _)
  · rw [step_starves ht hw hr, step_starves (s := s.withEntry e) ht hw hr]
    exact .next (h.update (·.takeMove.raise .unexpectedEndOfInput) (fun _ => rfl) rfl fun hb => by cases hb)

/-- START reads no slot, and resets the table when it begins a command (44_host_command.md R211). -/
theorem AgreeButStale.execStart_alike (w : Word32) : Alike (execStart w s) (execStart w (s.withEntry e)) := by
  have hb : (s.withEntry e).busy = s.busy := rfl
  have hl : ((s.withEntry e).setUsePred w).startLegal = (s.setUsePred w).startLegal := rfl
  simp only [execStart, hb, hl]
  split_ifs
  · exact .next h
  · exact .next (.reset (fun u => (u.setUsePred w).startValues) (fun _ => rfl) rfl)
  · exact .next (h.update (fun u => (u.setUsePred w).refuseCommand) (fun _ => rfl) rfl id)
  · exact .next (h.update (·.setUsePred w) (fun _ => rfl) rfl id)

theorem AgreeButStale.regWrite (off v : Word32) :
    AgreeButStale (s.regWrite off v) ((s.withEntry e).regWrite off v) := by
  obtain ⟨htable, hbusy⟩ := s.regWrite_sameTable off v
  exact h.update (·.regWrite off v) (fun e => s.regWrite_withEntry e off v) htable.nextCode fun hb => hbusy ▸ hb

theorem AgreeButStale.readOut_alike (a : Nat) : Alike (s.readOut a) ((s.withEntry e).readOut a) := by
  have hgiven : (s.withEntry e).outGiven = s.outGiven := rfl
  have hb : (s.withEntry e).busy = s.busy := rfl
  simp only [State.readOut, hgiven, hb]
  split_ifs
  · exact .next (h.update State.receiveDraw (fun _ => rfl) rfl id)
  · exact .next (h.update (fun u => u.receive ((u.outByte a).setWidth 32)) (fun _ => rfl) rfl id)
  · exact .fault _

/-- No move of the host that leaves the engine no turn reads a slot. -/
theorem AgreeButStale.hostAction_alike (m : HostMove) (hm : m = .wait → s.busy = false) :
    Alike (s.hostAction m).outcome ((s.withEntry e).hostAction m).outcome := by
  have hb : (s.withEntry e).busy = s.busy := rfl
  cases m with
  | write off v =>
    simp only [State.hostAction]
    split
    · cases hv : v.getLsbD 0 with
      | true =>
        rw [decodeCtrlWrite_ok hv]
        exact h.execStart_alike v
      | false =>
        rw [decodeCtrlWrite_error hv]
        exact .next (h.regWrite off v)
    · exact .next (h.regWrite off v)
  | read off => exact .next (h.update (fun u => u.receive (u.regRead off)) (fun _ => rfl) rfl id)
  | loadIn a b =>
    simp only [State.hostAction, hb, Action.outcome]
    split
    · exact .refused _
    · exact .next (h.update (·.putIn a.toNat b) (fun _ => rfl) rfl id)
  | loadOut a b =>
    simp only [State.hostAction, hb, Action.outcome]
    split
    · exact .refused _
    · exact .next (h.update (·.putOut a.toNat b) (fun _ => rfl) rfl id)
  | readOut a => exact h.readOut_alike a.toNat
  | declareOverlap b => exact .next (h.update (·.declareOverlap b) (fun _ => rfl) rfl id)
  | wait =>
    simp only [State.hostAction, hb, hm rfl, Bool.false_eq_true, if_false]
    exact .next h

/-- With no host move left and no command running, both rest or both are the same fault. -/
theorem AgreeButStale.quietAction_alike (hb : s.busy = false) :
    Alike s.quietAction.outcome (s.withEntry e).quietAction.outcome := by
  have heng : (s.withEntry e).engState = s.engState := rfl
  simp only [State.quietAction, heng]
  split
  · exact .next h
  · next hc => simp [State.busy, hc] at hb
  · next hr => simp [State.busy, hr] at hb
  · exact .next h
  · exact .fault _

/-- Every step of two states that differ in stale slots only answers alike. -/
theorem AgreeButStale.step_alike (hv : s.Inv) (hw' : Table.wf e = true) : Alike (step s) (step (s.withEntry e)) := by
  cases hr : s.refusedMark with
  | true =>
    rw [step_refused hr, step_refused (s := s.withEntry e) hr]
    exact .refused _
  | false =>
    by_cases ht : s.engineTurn = true
    · exact h.engineTurn_alike hv hw' ht
    cases hs : s.script with
    | nil =>
      have hb : s.busy = false := by
        by_contra hb
        exact ht (State.engineTurn_iff.mpr ⟨by simpa using hb, hr, .inl hs⟩)
      rw [step_quiet hr hs, step_quiet (s := s.withEntry e) hr hs]
      exact h.quietAction_alike hb
    | cons m rest =>
      have hm : m = .wait → s.busy = false := by
        rintro rfl
        by_contra hb
        exact ht (State.engineTurn_iff.mpr ⟨by simpa using hb, hr, .inr (by rw [hs]; rfl)⟩)
      rw [step_move hr hs, step_move (s := s.withEntry e) hr hs]
      have htaken := h.update State.takeMove (fun _ => rfl) rfl id
      exact htaken.hostAction_alike m hm

end Step

end Sys2Proof.Machine

/-! PROOFS. The statements about the Code Table (41_code_table.md): what resets it, when it takes an entry, how long its
entries grow, and that no step shows a stale slot. -/

namespace Sys2Proof.Machine

/-! ### `TBL_RESET` and `TBL_APPEND` -/

/-- Settles O19: a `CLEAR` leaves `State.clearCommand`, whose table is reset below 258 and stands above. -/
theorem clearResetsTheDictionary : Obligations.ClearResetsTheDictionary := by
  refine ⟨fun _ => rfl, fun s hb => ?_⟩
  have hfixed (k : Nat) (hk : k < 258) : s.clearCommand.tblEntry k = Table.unwritten k :=
    Table.read_resetFixed_below hk
  have hbyte (k : Nat) (hk : k ≤ 255) : s.clearCommand.tblEntry k = [BitVec.ofNat 8 k] := by
    rw [hfixed k (by omega), Table.unwritten, if_pos hk]
  exact ⟨s.clearCommand, State.whenEnabled_busy hb, rfl, rfl, rfl, rfl, hbyte, hfixed 256 (by decide),
    hfixed 257 (by decide), fun k hk => tblEntry_of_reset (s := s) rfl hk, rfl, rfl, ⟨rfl, rfl, rfl⟩,
    ⟨rfl, rfl, rfl, rfl, rfl, rfl, rfl, rfl, rfl, rfl, rfl, rfl, rfl, rfl⟩⟩

/-- Settles O28: either check refuses the append, and an append that passes both stores at `NEXT_CODE`, which the
capacity check keeps from wrapping. -/
theorem tableAppend : Obligations.TableAppend := by
  intro s p x
  refine ⟨fun h => State.tblAppend_error (by omega), fun hw hn hp => ⟨_, State.tblAppend_ok hn hp,
    Table.read_write_same hw, fun k hk => Table.read_write_other hk, ?_, rfl⟩⟩
  rw [State.storeEntry_nextCode, BitVec.toNat_ofNat]
  exact Nat.mod_eq_of_lt (by omega)

/-- Settles O27: the string fits and is emitted, and the refused append raises before the table, `PREV` or the width is
written. -/
theorem refusedAppendRaisesTableOverflow : Obligations.RefusedAppendRaisesTableOverflow := by
  intro s i cur h hlane hrun hcur hfits hfull
  have hb : s.busy = true := State.busy_iff.mpr (.inr hrun)
  have c := h.command hb
  have hno : ¬ s.canAppend := by
    simp only [State.canAppend]
    omega
  have hexec : exec i s = .next ((s.emitAll cur).raise .tableOverflow) := by
    rw [exec_string c hb hcur]
    exact State.stringTail_full (State.resolved_ne_nil c hcur) hfits (State.hasPrev_iff.mpr hrun) hno
  exact ⟨_, hexec, rfl, rfl, (State.emitted h hb hlane hfits).congr rfl rfl,
    ⟨s.emitAll_nextCode cur, s.emitAll_codeWidth cur, s.emitAll_entry cur, s.emitAll_prev cur⟩⟩

/-! ### Where the table is written -/

/-- The common tail stores at `NEXT_CODE` only, and only below 4094 (41_code_table.md R134). -/
theorem State.stringTail_beyond {s t : State} {cur : Str} (h : s.stringTail cur = .next t) {k : Nat} (hk : 4094 ≤ k) :
    t.tblEntry k = s.tblEntry k := by
  obtain ⟨-, ⟨-, rfl⟩ | ⟨-, -, -, rfl⟩ | ⟨-, -, ha, rfl⟩ | ⟨-, -, rfl⟩⟩ := State.stringTail_cases h
  · rfl
  · exact congrArg (Table.read · k) (s.emitAll_entry cur)
  · have hlt : s.nextCode.toNat < 4094 := ha.1
    rw [State.tblEntry, State.appendTail_entry]
    exact Table.read_write_other (by omega)
  · exact congrArg (Table.read · k) (s.emitAll_entry cur)

theorem exec_codeWord_beyond {i : Instr} {s t : State} (hi : i.isCodeWord = true) (h : exec i s = .next t) {k : Nat}
    (hk : 4094 ≤ k) : t.tblEntry k = s.tblEntry k := by
  obtain ⟨-, ⟨-, rfl⟩ | ⟨-, rfl⟩ | ⟨_, -, -, rfl⟩ | ⟨b, -, h⟩ | ⟨_, -, -, h⟩ | ⟨_, -, -, h⟩⟩ := exec_cases hi h
  · exact tblEntry_of_reset rfl (by omega)
  · rfl
  · rfl
  · exact State.stringTail_beyond h hk
  · exact State.stringTail_beyond h hk
  · exact State.stringTail_beyond h hk

/-- Settles O47: a reset writes the slots below 258, an append the slot of `NEXT_CODE` below 4094, and nothing else
writes the table. -/
theorem noSlotBeyondTheTableIsWritten : Obligations.NoSlotBeyondTheTableIsWritten := by
  intro s t _ he k hk
  rcases step_table_cases he with ⟨hsame, -⟩ | ⟨-, -, hexec⟩ | ⟨w, rfl⟩
  · exact hsame.tblEntry k
  · exact exec_codeWord_beyond (classify_isCodeWord _ _) hexec hk
  · exact tblEntry_of_reset rfl (by omega)

/-! ### How long the entries grow -/

theorem State.LengthBound.of_sameTable {s t : State} (h : s.LengthBound) (ht : SameTable s t)
    (hb : t.busy = true → s.busy = true) : t.LengthBound := by
  intro hbusy
  simpa only [ht.tblEntry, ht.nextCode, ht.prev] using h (hb hbusy)

theorem State.LengthBound.of_not_busy {t : State} (hb : t.busy = false) : t.LengthBound :=
  fun hbusy => absurd (hb.symm.trans hbusy) (by decide)

/-- After a reset the table holds no appended entry and `PREV` is empty (41_code_table.md R137, step 1). -/
theorem State.LengthBound.of_reset {t : State} (hn : t.nextCode = 258#12) (hp : t.prev = []) : t.LengthBound := by
  refine fun _ => ⟨fun k h1 h2 => ?_, by simp [hp]⟩
  have hk : k < 258 := by simpa [hn] using h2
  omega

/-- A literal or a reference stands for a string that the bound of `PREV` admits as it is; a `PEND`, which is met in
`RUNNING` only, for one a byte longer (41_code_table.md R137, step 3). -/
theorem State.LengthBound.resolved_length {s : State} {i : Instr} {cur : Str} (h : s.LengthBound) (hb : s.busy = true)
    (c : s.CommandInv) (hr : s.resolved i = some cur) :
    cur.length + 257 ≤ s.nextCode.toNat ∨
      (cur.length + 256 ≤ s.nextCode.toNat ∧ s.hasPrev = true) := by
  obtain ⟨hentry, hprev⟩ := h hb
  have hge := c.nextCode_ge
  cases i with
  | lit b =>
    cases hr
    left
    rw [List.length_singleton]
    omega
  | ref k =>
    simp only [State.resolved] at hr
    split at hr
    · next hk =>
      cases hr
      obtain ⟨hk1, hk2⟩ := State.isRef_iff.mp hk
      have := hentry k.toNat hk1 hk2
      omega
    · cases hr
  | pend k =>
    simp only [State.resolved] at hr
    split at hr
    · next hk =>
      cases hr
      right
      rw [List.length_append, List.length_singleton]
      exact ⟨by omega, State.hasPrev_iff.mpr (State.isPend_iff.mp hk).2⟩
    · cases hr
  | clear => cases hr
  | eoi => cases hr
  | invalid k => cases hr
  | start w => cases hr

/-- An append stores one byte more than `PREV` at `NEXT_CODE`, and the `NEXT_CODE` it leaves admits the new `PREV`
(41_code_table.md R137, steps 2 and 3). -/
theorem State.LengthBound.appendTail {s : State} {cur : Str} (h : s.LengthBound) (hv : s.Inv) (hb : s.busy = true)
    (ha : s.canAppend) (hl : cur.length + 256 ≤ s.nextCode.toNat) : (s.appendTail cur).LengthBound := by
  obtain ⟨hentry, hprev⟩ := h hb
  have hge := (hv.command hb).nextCode_ge
  have a := State.appended (cur := cur) hv.entry_wf ha
  refine fun _ => ⟨fun k h1 h2 => ?_, ?_⟩
  · rw [a.nextCode] at h2
    by_cases hk : k = s.nextCode.toNat
    · rw [hk, a.stored, List.length_append, List.length_singleton]
      omega
    · rw [a.others k hk]
      exact hentry k h1 (by omega)
  · rw [a.prev, a.nextCode]
    omega

theorem State.LengthBound.remember {s : State} {cur : Str} (h : s.LengthBound) (hb : s.busy = true)
    (hl : cur.length + 257 ≤ s.nextCode.toNat) : ((s.emitAll cur).remember cur).LengthBound := by
  obtain ⟨hentry, -⟩ := h hb
  refine fun _ => ⟨?_, ?_⟩
  · simpa [State.tblEntry] using hentry
  · simp only [State.remember_prev, State.remember_nextCode, State.emitAll_nextCode]
    omega

theorem State.LengthBound.exec_codeWord {i : Instr} {s t : State} (h : s.LengthBound) (hv : s.Inv)
    (hi : i.isCodeWord = true) (he : exec i s = .next t) : t.LengthBound := by
  obtain ⟨hb, ⟨-, rfl⟩ | ⟨-, rfl⟩ | ⟨k, -, rfl⟩ | ⟨cur, hcur, htail⟩⟩ := exec_cases_resolved hv hi he
  · exact .of_reset rfl rfl
  · exact .of_not_busy rfl
  · exact .of_not_busy rfl
  · have hl := h.resolved_length hb (hv.command hb) hcur
    obtain ⟨-, ⟨-, rfl⟩ | ⟨-, -, -, rfl⟩ | ⟨-, -, ha, rfl⟩ | ⟨-, hr, rfl⟩⟩ := State.stringTail_cases htail
    · exact .of_not_busy rfl
    · exact .of_not_busy rfl
    · exact h.appendTail hv hb ha (by omega)
    · exact h.remember hb (hl.resolve_right (by simp [hr]))

/-- Settles O42: a code word keeps the bound, START resets what it speaks of, and no other step touches that. -/
theorem everyStepKeepsTheLengthBound : Obligations.EveryStepKeepsTheLengthBound := by
  intro s t hv h he
  rcases step_table_cases he with ⟨hsame, hbusy⟩ | ⟨hb, hr, hexec⟩ | ⟨w, rfl⟩
  · exact h.of_sameTable hsame hbusy
  · have hread : (s.takeMove.advance s.codeWidth.toNat).LengthBound := h
    exact hread.exec_codeWord (hv.takeMove.advance hb hr) (classify_isCodeWord _ _) hexec
  · exact .of_reset rfl rfl

/-! ### Stale slots -/

/-- Settles O52: the second state is the first with another table, and every step answers alike in both. -/
theorem staleSlotsCannotBeObserved : Obligations.StaleSlotsCannotBeObserved := by
  intro s s' hv hv' h
  have hs' : s' = s.withEntry s'.entry := h.eq_withEntry
  have hw' := hv'.entry_wf
  generalize s'.entry = e at hs' hw'
  subst hs'
  exact (h.step_alike hv hw').answers

end Sys2Proof.Machine

/-! SUPPORT. The meanings of the code words as equations, and which part of the state the common tail of the string codes
writes (42_decoder_engine.md R150, R152 to R158). -/

namespace Sys2Proof.Machine

/-! ### What each code word means -/

section Meanings

variable (s : State) (k : Code)

theorem exec_lit (b : Byte) : exec (.lit b) s = s.whenEnabled (s.stringTail (s.litString b)) := rfl

theorem exec_eoi : exec .eoi s = s.whenEnabled (.next { s with engState := .done }) := rfl

theorem exec_ref : exec (.ref k) s =
    s.whenEnabled (if s.isRef k then s.stringTail (s.refString k) else .refused .notThisClass) := rfl

theorem exec_pend : exec (.pend k) s =
    s.whenEnabled (if s.isPend k then s.stringTail s.pendString else .refused .notThisClass) := rfl

theorem exec_invalid : exec (.invalid k) s =
    s.whenEnabled (if s.isInvalid k then .next (s.raise .invalidCode) else .refused .notThisClass) := rfl

end Meanings

section Stops

variable {s : State} {o : Host.Outcome State Fault Refusal}

theorem State.whenEnabled_not_busy (h : s.busy = false) : s.whenEnabled o = .refused .engineNotEnabled := by
  simp only [State.whenEnabled, h, Bool.false_eq_true, if_false]

theorem State.stringTail_nil : s.stringTail [] = .refused .emptyString := rfl

/-- A string code that answers a next state ran the common tail on the string that its meaning resolves. -/
theorem stringTail_of_exec {i : Instr} {cur : Str} {t : State}
    (hi : (∃ b, i = .lit b ∧ cur = s.litString b) ∨ (∃ k, i = .ref k ∧ cur = s.refString k) ∨
      (∃ k, i = .pend k ∧ cur = s.pendString))
    (h : exec i s = .next t) : s.stringTail cur = .next t := by
  have hword : i.isCodeWord = true := by rcases hi with ⟨b, rfl, -⟩ | ⟨k, rfl, -⟩ | ⟨k, rfl, -⟩ <;> rfl
  obtain ⟨hb, -⟩ := exec_cases hword h
  rcases hi with ⟨b, rfl, rfl⟩ | ⟨k, rfl, rfl⟩ | ⟨k, rfl, rfl⟩
  · rwa [exec_lit, State.whenEnabled_busy hb] at h
  · rw [exec_ref, State.whenEnabled_busy hb] at h
    split at h
    · exact h
    · cases h
  · rw [exec_pend, State.whenEnabled_busy hb] at h
    split at h
    · exact h
    · cases h

/-- What a control code or an INVALID that answers a next state leaves. -/
theorem exec_control_cases {i : Instr} {t : State} (hi : i = .clear ∨ i = .eoi ∨ ∃ k, i = .invalid k)
    (h : exec i s = .next t) :
    (i = .clear ∧ t = s.clearCommand) ∨ (i = .eoi ∧ t = { s with engState := .done }) ∨
      ((∃ k, i = .invalid k) ∧ t = s.raise .invalidCode) := by
  have hword : i.isCodeWord = true := by rcases hi with rfl | rfl | ⟨k, rfl⟩ <;> rfl
  obtain ⟨-, h | h | ⟨k, hk, -, ht⟩ | ⟨b, rfl, -⟩ | ⟨k, rfl, -⟩ | ⟨k, rfl, -⟩⟩ := exec_cases hword h
  · exact .inl h
  · exact .inr (.inl h)
  · exact .inr (.inr ⟨⟨k, hk⟩, ht⟩)
  all_goals simp at hi

end Stops

/-! ### The lanes -/

/-- The predictor writes no lane from `SPP` up (10_state.md R33, 43_predictor.md R192, R195, R196). -/
theorem predict_lane_above {rowStride spp i l : Nat} {raw : Byte} {lane : List Byte} (hs : 1 ≤ spp) (hl : spp ≤ l) :
    (predict rowStride spp i raw lane).2.getD l 0#8 = lane.getD l 0#8 := by
  have hset (lanes : List Byte) (c : Nat) (v : Byte) (hc : c < spp) : (lanes.set c v).getD l 0#8 = lanes.getD l 0#8 := by
    simp only [List.getD_eq_getElem?_getD, List.getElem?_set_ne (show c ≠ l by omega)]
  have hzero : (if i % rowStride = 0 then zeroLanes spp lane else lane).getD l 0#8 = lane.getD l 0#8 := by
    split
    · exact zeroLanes_getD_above hl
    · rfl
  simp only [predict]
  split
  · next hc => rw [hset _ _ _ hc, hzero]
  · rw [hset _ _ _ (Nat.mod_lt _ hs), hzero]

theorem State.reconstruct_lane_off {s : State} {raw : Byte} (h : s.usePred = false) : (s.reconstruct raw).2 = s.lane := by
  simp only [State.reconstruct, h, Bool.false_eq_true, if_false]

theorem State.reconstruct_lane_above {s : State} {raw : Byte} {l : Nat} (hs : 1 ≤ s.spp.toNat) (hl : s.spp.toNat ≤ l) :
    (s.reconstruct raw).2.getD l 0#8 = s.lane.getD l 0#8 := by
  simp only [State.reconstruct]
  split
  · exact predict_lane_above hs hl
  · rfl

/-- With the predictor off `EMIT` leaves the lanes (43_predictor.md R194). -/
theorem State.emitAll_lane_off {s : State} {str : Str} (h : s.usePred = false) : (s.emitAll str).lane = s.lane := by
  induction str generalizing s with
  | nil => rfl
  | cons b t ih => exact (ih (s := s.emitByte b) h).trans (State.reconstruct_lane_off h)

theorem State.emitAll_lane_above {s : State} {str : Str} {l : Nat} (hs : 1 ≤ s.spp.toNat) (hl : s.spp.toNat ≤ l) :
    (s.emitAll str).lane.getD l 0#8 = s.lane.getD l 0#8 := by
  induction str generalizing s with
  | nil => rfl
  | cons b t ih => exact (ih (s := s.emitByte b) hs hl).trans (State.reconstruct_lane_above hs hl)

/-! ### What the common tail writes -/

/-- An update of the engine's own registers, the table and the output side leaves the setting. -/
theorem SameSetting.update {s t u : State} (h : SameSetting s u)
    (e : t = { u with
      engState := t.engState, errKind := t.errKind, nextCode := t.nextCode, codeWidth := t.codeWidth, prev := t.prev,
      entry := t.entry, outPos := t.outPos, lane := t.lane, outMem := t.outMem }) : SameSetting s t := by
  rw [e]
  exact ⟨h.lMax, h.sppMax, h.usePred, h.inLen, h.outCap, h.rowStride, h.spp, h.inMem, h.outGiven, h.overlap,
    h.refusedMark, h.script, h.hostData, h.draws⟩

theorem SameSetting.refl (s : State) : SameSetting s s :=
  ⟨rfl, rfl, rfl, rfl, rfl, rfl, rfl, rfl, rfl, rfl, rfl, rfl, rfl, rfl⟩

theorem State.emitAll_sameSetting (s : State) (str : Str) : SameSetting s (s.emitAll str) :=
  ⟨s.emitAll_lMax str, s.emitAll_sppMax str, s.emitAll_usePred str, s.emitAll_inLen str, s.emitAll_outCap str,
    s.emitAll_rowStride str, s.emitAll_spp str, s.emitAll_inMem str, s.emitAll_outGiven str, s.emitAll_overlap str,
    s.emitAll_refusedMark str, s.emitAll_script str, s.emitAll_hostData str, s.emitAll_draws str⟩

section Tail

variable {s t : State} {cur : Str}

theorem State.stringTail_sameSetting (h : s.stringTail cur = .next t) : SameSetting s t := by
  have hemit := s.emitAll_sameSetting cur
  obtain ⟨-, ⟨-, rfl⟩ | ⟨-, -, -, rfl⟩ | ⟨-, -, -, rfl⟩ | ⟨-, -, rfl⟩⟩ := State.stringTail_cases h
  · exact (SameSetting.refl s).update rfl
  · exact hemit.update rfl
  · exact hemit.update rfl
  · exact hemit.update rfl

/-- The common tail leaves the output side, or writes there what `EMIT` of a string that fits writes. -/
theorem State.stringTail_output (h : s.stringTail cur = .next t) :
    SameOutput s t ∨ s.fits cur ∧ SameOutput (s.emitAll cur) t := by
  obtain ⟨-, ⟨-, rfl⟩ | ⟨hf, -, -, rfl⟩ | ⟨hf, -, -, rfl⟩ | ⟨hf, -, rfl⟩⟩ := State.stringTail_cases h
  · exact .inl ⟨rfl, rfl, rfl⟩
  · exact .inr ⟨hf, rfl, rfl, rfl⟩
  · exact .inr ⟨hf, rfl, rfl, rfl⟩
  · exact .inr ⟨hf, rfl, rfl, rfl⟩

theorem State.emitAll_sameTable (s : State) (str : Str) : SameTable s (s.emitAll str) :=
  ⟨s.emitAll_nextCode str, s.emitAll_codeWidth str, s.emitAll_entry str, s.emitAll_prev str⟩

/-- Where the common tail raises it has written nothing of the table, `CODE_WIDTH` or `PREV` (42_decoder_engine.md
R161). -/
theorem State.stringTail_failed_sameTable (h : s.stringTail cur = .next t) (hf : t.engState = .failed) :
    SameTable s t := by
  have hemit := s.emitAll_sameTable cur
  obtain ⟨-, ⟨-, rfl⟩ | ⟨-, -, -, rfl⟩ | ⟨-, -, -, rfl⟩ | ⟨-, -, rfl⟩⟩ := State.stringTail_cases h
  · exact ⟨rfl, rfl, rfl, rfl⟩
  · exact ⟨hemit.nextCode, hemit.codeWidth, hemit.entry, hemit.prev⟩
  · cases hf
  · cases hf

/-- The common tail writes `ERR_KIND` only where it raises (60_exceptions.md R240). -/
theorem State.stringTail_errKind (h : s.stringTail cur = .next t) (hf : t.engState ≠ .failed) :
    t.errKind = s.errKind := by
  obtain ⟨-, ⟨-, rfl⟩ | ⟨-, -, -, rfl⟩ | ⟨-, -, -, rfl⟩ | ⟨-, -, rfl⟩⟩ := State.stringTail_cases h
  · exact absurd rfl hf
  · exact absurd rfl hf
  · exact State.appendTail_errKind s cur
  · exact s.emitAll_errKind cur

/-- The common tail stores at `NEXT_CODE` only (41_code_table.md R135). -/
theorem State.stringTail_tblEntry (h : s.stringTail cur = .next t) {k : Nat} (hk : k ≠ s.nextCode.toNat) :
    t.tblEntry k = s.tblEntry k := by
  have hemit := (s.emitAll_sameTable cur).tblEntry k
  obtain ⟨-, ⟨-, rfl⟩ | ⟨-, -, -, rfl⟩ | ⟨-, -, -, rfl⟩ | ⟨-, -, rfl⟩⟩ := State.stringTail_cases h
  · rfl
  · exact hemit
  · rw [State.tblEntry, State.appendTail_entry]
    exact Table.read_write_other hk
  · exact hemit

/-- Of `OUT` the common tail writes the string's own offsets at most (20_memory.md R64). -/
theorem State.stringTail_outByte (h : s.stringTail cur = .next t) {a : Nat}
    (ha : a < s.outPos.toNat ∨ s.outPos.toNat + cur.length ≤ a) : t.outByte a = s.outByte a := by
  rcases State.stringTail_output h with hsame | ⟨hf, hsame⟩
  · rw [State.outByte, hsame.outMem, State.outByte]
  · rw [State.outByte, hsame.outMem]
    exact State.emitAll_others hf.lt ha

theorem State.stringTail_lane_above (h : s.stringTail cur = .next t) (hs : 1 ≤ s.spp.toNat) {l : Nat}
    (hl : s.spp.toNat ≤ l) : t.lane.getD l 0#8 = s.lane.getD l 0#8 := by
  rcases State.stringTail_output h with hsame | ⟨-, hsame⟩
  · rw [hsame.lane]
  · rw [hsame.lane, State.emitAll_lane_above hs hl]

theorem State.stringTail_lane_off (h : s.stringTail cur = .next t) (hp : s.usePred = false) : t.lane = s.lane := by
  rcases State.stringTail_output h with hsame | ⟨-, hsame⟩
  · exact hsame.lane
  · rw [hsame.lane, State.emitAll_lane_off hp]

end Tail

end Sys2Proof.Machine

/-! PROOFS. The statements about the Decoder Engine (42_decoder_engine.md): what each code word does, what it leaves, where
it stops, and that a step runs the code word at `BIT_POS`. -/

namespace Sys2Proof.Machine

/-! ### String codes -/

/-- Settles O22: with no previous string the common tail emits and remembers, and nothing else. -/
theorem literalAfterAReset : Obligations.LiteralAfterAReset := by
  intro s b h hlane hcleared hfits
  have hf : s.fits [b] := hfits
  have hb : s.busy = true := State.busy_iff.mpr (.inl hcleared)
  have hnone : s.hasPrev = false := by simp [State.hasPrev, hcleared]
  have hexec : exec (.lit b) s = .next ((s.emitAll [b]).remember [b]) := by
    rw [exec_string (h.command hb) hb rfl]
    exact State.stringTail_first (by simp) hf hnone
  exact ⟨_, hexec, (State.emitted h hb hlane hf).congr rfl rfl, rfl, rfl, s.emitAll_nextCode [b],
    s.emitAll_codeWidth [b], s.emitAll_entry [b], s.emitAll_errKind [b]⟩

/-- In `RUNNING` a string code whose string fits, and whose append passes both checks, emits the string and appends
(42_decoder_engine.md R158). -/
theorem exec_appends {s : State} {i : Instr} {cur : Str} (h : s.Inv) (hlane : s.LaneInv) (hrun : s.engState = .running)
    (hcur : s.resolved i = some cur) (hf : s.fits cur) (ha : s.canAppend) :
    ∃ t, exec i s = .next t ∧ Emitted s cur t ∧ Appended s cur t := by
  have hb : s.busy = true := State.busy_iff.mpr (.inr hrun)
  have c := h.command hb
  have hexec : exec i s = .next (s.appendTail cur) := by
    rw [exec_string c hb hcur]
    exact State.stringTail_append (State.resolved_ne_nil c hcur) hf (State.hasPrev_iff.mpr hrun) ha
  exact ⟨_, hexec, (State.emitted h hb hlane hf).congr rfl rfl, State.appended h.entry_wf ha⟩

/-- Settles O23: `LIT b` stands for `[b]`. -/
theorem literalAppendsAnEntry : Obligations.LiteralAppendsAnEntry := by
  intro s b h hlane hrun hfits hn hl
  exact exec_appends h hlane hrun rfl hfits ⟨hn, hl⟩

/-- Settles O24: `REF k` stands for the entry `k`. -/
theorem referenceAppendsAnEntry : Obligations.ReferenceAppendsAnEntry := by
  intro s k h hlane hrun hk1 hk2 hfits hn hl
  have hcur : s.resolved (.ref k) = some (s.tblEntry k.toNat) := by
    rw [State.resolved, if_pos (State.isRef_iff.mpr ⟨hk1, hk2⟩)]
  exact exec_appends h hlane hrun hcur hfits ⟨hn, hl⟩

/-- Settles O25: `PEND` stands for `PREV` and its first byte, which is also the first byte of that string, so that the
entry appended is the string. -/
theorem pendingSlotAppendsItsOwnString : Obligations.PendingSlotAppendsItsOwnString := by
  rintro s k h hlane hrun rfl hfits hn hl
  have hcur : s.resolved (.pend s.nextCode) = some (s.prev ++ [s.prev.headD 0#8]) := by
    rw [State.resolved, if_pos (State.isPend_iff.mpr ⟨rfl, hrun⟩)]
  have hf : s.fits (s.prev ++ [s.prev.headD 0#8]) := by
    rw [State.fits, List.length_append]
    exact hfits
  obtain ⟨t, hexec, hemitted, happended⟩ := exec_appends h hlane hrun hcur hf ⟨hn, hl⟩
  have hfirst : (s.prev ++ [s.prev.headD 0#8]).headD 0#8 = s.prev.headD 0#8 := by
    obtain ⟨x, rest, hprev⟩ :=
      List.exists_cons_of_ne_nil ((h.command (State.busy_iff.mpr (.inr hrun))).prev_ne_nil hrun)
    rw [hprev]
    rfl
  exact ⟨t, hexec, hemitted, happended, by rw [happended.stored, hfirst]⟩

/-- Settles O34, by what the common tail writes of each part of the state. -/
theorem stringCodeFrame : Obligations.StringCodeFrame := by
  intro s t i cur hi he
  have h : s.stringTail cur = .next t := stringTail_of_exec hi he
  exact ⟨fun _ => State.stringTail_outByte h, fun _ => State.stringTail_tblEntry h,
    fun hs _ => State.stringTail_lane_above h hs, State.stringTail_lane_off h, State.stringTail_errKind h,
    State.stringTail_failed_sameTable h⟩

/-! ### Every code word -/

/-- Settles O33: the control codes write only the engine's registers and the table, the string codes what the common tail
writes. -/
theorem codeWordFrame : Obligations.CodeWordFrame := by
  intro i s t hi he
  refine ⟨?_, exec_codeWord_bitPos hi he⟩
  obtain ⟨-, ⟨-, rfl⟩ | ⟨-, rfl⟩ | ⟨k, -, -, rfl⟩ | ⟨b, -, h⟩ | ⟨k, -, -, h⟩ | ⟨k, -, -, h⟩⟩ := exec_cases hi he
  · exact (SameSetting.refl s).update rfl
  · exact (SameSetting.refl s).update rfl
  · exact (SameSetting.refl s).update rfl
  · exact State.stringTail_sameSetting h
  · exact State.stringTail_sameSetting h
  · exact State.stringTail_sameSetting h

/-- Settles O37: the three stops, each by the equation of the meaning that meets it. -/
theorem codeWordStops : Obligations.CodeWordStops := by
  refine ⟨fun i s hi hb => ?_, fun i s hi hb hwf => ?_, fun s b hb hnil => ?_, fun s k hb hk hnil => ?_,
    fun s k hb hk hnil => ?_⟩
  · cases i with
    | start w => cases hi
    | _ => exact State.whenEnabled_not_busy hb
  · cases i with
    | lit b => cases hwf
    | clear => cases hwf
    | eoi => cases hwf
    | ref k => rw [exec_ref, State.whenEnabled_busy hb, State.isRef, hwf]; rfl
    | pend k => rw [exec_pend, State.whenEnabled_busy hb, State.isPend, hwf]; rfl
    | invalid k => rw [exec_invalid, State.whenEnabled_busy hb, State.isInvalid, hwf]; rfl
    | start w => cases hi
  · rw [exec_lit, State.whenEnabled_busy hb, hnil, State.stringTail_nil]
  · rw [exec_ref, State.whenEnabled_busy hb, State.isRef, if_pos hk, hnil, State.stringTail_nil]
  · rw [exec_pend, State.whenEnabled_busy hb, State.isPend, if_pos hk, hnil, State.stringTail_nil]

/-! ### Control codes and INVALID -/

/-- Settles O20: `EOI` changes `ENG_STATE` alone, from which `STATUS` is computed. -/
theorem eoiEndsTheCommand : Obligations.EoiEndsTheCommand := by
  refine ⟨fun _ => rfl, fun s hb => ⟨{ s with engState := .done }, ?_, rfl, rfl, State.regRead_bytesWritten _⟩⟩
  rw [exec_eoi, State.whenEnabled_busy hb]

/-- 30_encoding.md R84 rows 3′ and 6: for these the context need only have `NEXT_CODE` at least 258. -/
theorem classify_invalid {x : Ctx} {c : Code} (hx : 258 ≤ x.nextCode)
    (h : (Instr.invalid c).wfIn x = true) : classify x c = .invalid c := by
  simp only [Instr.wfIn, Bool.or_eq_true, Bool.and_eq_true, decide_eq_true_eq, Bool.not_eq_true'] at h
  rw [Laws.CodeRoundTrip.classify_eq, if_neg (by omega), if_neg (by omega)]
  rcases h with h | ⟨hc, hr⟩
  · rw [if_neg (by omega), if_neg (by omega), if_neg (by omega)]
  · rw [if_pos hc, hr]
    rfl

/-- Settles O21: the code has class INVALID in the state's context, so its meaning raises. -/
theorem invalidCodeIsRaised : Obligations.InvalidCodeIsRaised := by
  intro s k hb hn hk
  have hinvalid : s.isInvalid k = true :=
    State.isInvalid_iff.mpr (hk.imp_right fun ⟨hk, hcleared⟩ => ⟨hk, by simp [hcleared]⟩)
  refine ⟨classify_invalid hn hinvalid, ?_⟩
  rw [exec_invalid, State.whenEnabled_busy hb, if_pos hinvalid]
  rfl

/-- Settles O35, by the state that each of the three leaves. -/
theorem controlCodeFrame : Obligations.ControlCodeFrame := by
  intro s t i hi he
  rcases exec_control_cases hi he with ⟨rfl, rfl⟩ | ⟨rfl, rfl⟩ | ⟨⟨k, rfl⟩, rfl⟩
  · exact ⟨⟨rfl, rfl, rfl⟩, fun h => absurd rfl h, fun k hk => tblEntry_of_reset rfl hk, fun _ => rfl⟩
  · exact ⟨⟨rfl, rfl, rfl⟩, fun _ => ⟨rfl, rfl, rfl, rfl⟩, fun _ _ => rfl, fun _ => rfl⟩
  · exact ⟨⟨rfl, rfl, rfl⟩, fun _ => ⟨rfl, rfl, rfl, rfl⟩, fun _ _ => rfl, fun h => by simp at h⟩

/-! ### A step -/

/-- Settles O7: the bits decode, so their width is legal and their class is the instruction that the engine's turn runs;
`BIT_POS`, which ends within the stream, does not wrap. -/
theorem stepRunsTheDecodedCodeWord : Obligations.StepRunsTheDecodedCodeWord := by
  intro s i hturn hbits hdecode
  obtain ⟨hw, word, -, hword, rfl⟩ := decodeBits_eq_ok_iff.mp hdecode
  rw [List.append_nil] at hword
  subst hword
  have hpos : s.bitPos.toNat ≤ 8 * s.inLen.toNat := by omega
  have hremains : s.codeWidth.toNat ≤ 8 * s.inLen.toNat - s.bitPos.toNat := by omega
  exact ⟨step_runs hturn hw hremains, State.advance_toNat (s := s.takeMove) hpos hremains⟩

/-- Settles O50: with no host move left, what comes next is read off `ENG_STATE`. -/
theorem idleAndDoneRest : Obligations.IdleAndDoneRest := by
  intro s hr hs hrest
  rw [step_quiet hr hs]
  rcases hrest with h | h <;> simp only [State.quietAction, h, Action.outcome]

end Sys2Proof.Machine

/-! SUPPORT. What keeps the lane law of 43_predictor.md R197, and `EMIT` with the lane file and the row geometry replaced. -/

namespace Sys2Proof.Machine

/-! ### What the lane law reads -/

/-- The lane law reads the output side and the row geometry only. -/
theorem State.LaneLaw.of_sameOutput {s t : State} (h : s.LaneLaw) (hout : SameOutput s t)
    (hrow : t.rowStride = s.rowStride) (hspp : t.spp = s.spp) : t.LaneLaw := by
  simpa only [State.LaneLaw, State.outByte, hout.outMem, hout.outPos, hout.lane, hrow, hspp] using h

theorem State.LaneInv.of_not_busy {t : State} (hb : t.busy = false) : t.LaneInv :=
  fun hbusy => absurd (hb.symm.trans hbusy) (by decide)

/-- START leaves no byte written, so that no lane is bound (10_state.md R38). -/
theorem State.startValues_laneInv (s : State) : s.startValues.LaneInv :=
  fun _ _ j hj => absurd hj (Nat.not_lt_zero j)

/-! ### `EMIT` -/

/-- With the predictor on, a running command that meets the invariants is ready for `EMIT`'s loop. -/
theorem State.Inv.emitReady {s : State} (h : s.Inv) (hlane : s.LaneInv) (hb : s.busy = true)
    (hp : s.usePred = true) : s.EmitReady :=
  have c := h.command hb
  { out_wf := h.out_wf, usePred := hp, rowStride_pos := c.rowStride_pos, spp_pos := c.spp_pos,
    spp_le := h.lanes ▸ c.spp_le, law := hlane hb hp }

theorem State.LaneInv.emitAll {s : State} (hlane : s.LaneInv) (h : s.Inv) {str : Str} (hf : s.fits str) :
    (s.emitAll str).LaneInv := by
  intro hb hp
  have hb' : s.busy = true := by simpa [State.busy] using hb
  have hp' : s.usePred = true := by simpa using hp
  exact ((h.emitReady hlane hb' hp').emitAll str hf.lt).law

/-- `EMIT` writes `OUT`, `OUT_POS` and the lanes alone. -/
theorem State.emitAll_writes (s : State) (str : Str) : s.emitAll str =
    { s with
      outMem := (s.emitAll str).outMem, outPos := (s.emitAll str).outPos, lane := (s.emitAll str).lane } :=
  s.emitAll_keeps str
    (fun u => { u with
      outMem := (s.emitAll str).outMem, outPos := (s.emitAll str).outPos, lane := (s.emitAll str).lane })
    fun _ _ => rfl

theorem State.emit_overflow_iff {s : State} {str : Str} : s.emit str = .error .outputOverflow ↔ ¬ s.fits str := by
  refine ⟨fun he hf => ?_, State.emit_overflow⟩
  rw [State.emit_fits hf] at he
  cases he

/-! ### Code words and the lane law -/

/-- The common tail leaves the output side as it was, or as `EMIT` of a string that fits leaves it. -/
theorem State.LaneInv.stringTail {s t : State} {cur : Str} (hlane : s.LaneInv) (h : s.Inv) (hb : s.busy = true)
    (he : s.stringTail cur = .next t) : t.LaneInv := by
  intro _ hp
  have hset := State.stringTail_sameSetting he
  have hp' : s.usePred = true := hset.usePred.symm.trans hp
  rcases State.stringTail_output he with hout | ⟨hf, hout⟩
  · exact State.LaneLaw.of_sameOutput (hlane hb hp') hout hset.rowStride hset.spp
  · have hemit := s.emitAll_sameSetting cur
    exact ((h.emitReady hlane hb hp').emitAll cur hf.lt).law.of_sameOutput hout
      (hset.rowStride.trans hemit.rowStride.symm) (hset.spp.trans hemit.spp.symm)

/-- A CLEAR code keeps the lanes and the row they belong to; EOI and INVALID end the command (43_predictor.md R200). -/
theorem State.LaneInv.exec_codeWord {i : Instr} {s t : State} (hlane : s.LaneInv) (h : s.Inv)
    (hi : i.isCodeWord = true) (he : exec i s = .next t) : t.LaneInv := by
  obtain ⟨hb, ⟨-, rfl⟩ | ⟨-, rfl⟩ | ⟨k, -, rfl⟩ | ⟨cur, -, htail⟩⟩ := exec_cases_resolved h hi he
  · exact fun _ hp => hlane hb hp
  · exact .of_not_busy rfl
  · exact .of_not_busy rfl
  · exact hlane.stringTail h hb htail

/-! ### The host's moves and the lane law -/

theorem State.LaneInv.execStart {s t : State} {w : Word32} (hlane : s.LaneInv) (he : execStart w s = .next t) :
    t.LaneInv := by
  rcases execStart_cases he with ⟨-, rfl⟩ | ⟨-, -, -, rfl⟩ | ⟨hb, -, -, rfl⟩ | ⟨hb, -, rfl⟩
  · exact hlane
  · exact State.startValues_laneInv _
  · exact .of_not_busy hb
  · exact .of_not_busy hb

/-- While a command runs a register write is ignored (44_host_command.md R214). -/
theorem State.LaneInv.regWrite {s : State} (hlane : s.LaneInv) (off v : Word32) : (s.regWrite off v).LaneInv := by
  cases hb : s.busy with
  | true => rwa [State.regWrite_busy v hb]
  | false => exact .of_not_busy ((s.regWrite_sameTable off v).2.trans hb)

/-! ### What the predictor reads when it is off -/

/-- The state with another lane file and another row geometry. -/
def State.withLanes (s : State) (lane : List Byte) (rowStride spp : Word32) : State :=
  { s with lane := lane, rowStride := rowStride, spp := spp }

theorem State.reconstruct_off {s : State} {raw : Byte} (h : s.usePred = false) : s.reconstruct raw = (raw, s.lane) := by
  simp only [State.reconstruct, h, Bool.false_eq_true, if_false]

theorem State.emitByte_withLanes {s : State} (h : s.usePred = false) (b : Byte) (lane : List Byte)
    (rowStride spp : Word32) :
    (s.withLanes lane rowStride spp).emitByte b = (s.emitByte b).withLanes lane rowStride spp := by
  have h' : (s.withLanes lane rowStride spp).usePred = false := h
  simp only [State.emitByte, State.reconstruct_off h, State.reconstruct_off h']
  rfl

theorem State.emitAll_withLanes {s : State} (h : s.usePred = false) (str : Str) (lane : List Byte)
    (rowStride spp : Word32) :
    (s.withLanes lane rowStride spp).emitAll str = (s.emitAll str).withLanes lane rowStride spp := by
  induction str generalizing s with
  | nil => rfl
  | cons b t ih => rw [State.emitAll_cons, State.emitByte_withLanes h, ih (s := s.emitByte b) h, State.emitAll_cons]

/-! ### One byte -/

/-- Past the first pixel of a row the byte is added to its lane (43_predictor.md R196). -/
theorem predict_summed {rowStride spp i : Nat} {raw : Byte} {lane : List Byte} (hs : 1 ≤ spp)
    (h : spp ≤ i % rowStride) :
    predict rowStride spp i raw lane =
      (raw + lane.getD (i % rowStride % spp) 0#8,
        lane.set (i % rowStride % spp) (raw + lane.getD (i % rowStride % spp) 0#8)) := by
  have hcol : ¬ i % rowStride = 0 := by omega
  have hpixel : ¬ i % rowStride < spp := by omega
  simp only [predict, if_neg hcol, if_neg hpixel]

theorem State.emitByte_outByte {s : State} {raw : Byte} (hw : Memory.wf s.outMem = true) :
    (s.emitByte raw).outByte s.outPos.toNat = (s.reconstruct raw).1 :=
  Memory.read_write_same hw

/-- The reconstructed byte with the predictor on (43_predictor.md R195, R196). -/
theorem State.reconstruct_on {s : State} {raw : Byte} (hp : s.usePred = true) (hs : 1 ≤ s.spp.toNat) :
    (s.reconstruct raw).1 =
      if s.outPos.toNat % s.rowStride.toNat < s.spp.toNat then raw
      else raw + s.lane.getD (s.outPos.toNat % s.rowStride.toNat % s.spp.toNat) 0#8 := by
  split
  · next hpixel => exact State.reconstruct_plain (.inr hpixel)
  · next hpixel => exact State.reconstruct_summed hp hs (not_lt.mp hpixel)

end Sys2Proof.Machine

/-! PROOFS. The statements about the Predictor Stage (43_predictor.md): what `EMIT` writes, when it raises, and that every
step keeps the lane invariant. -/

namespace Sys2Proof.Machine

/-- Settles O41, by the cases of a step: a code word keeps the law by its own lemma, START leaves no byte written, and no
other move reaches a running command's output side. -/
theorem everyStepKeepsTheLaneInvariant : Obligations.EveryStepKeepsTheLaneInvariant := by
  intro s t h hlane he
  obtain ⟨-, hcase⟩ := step_cases he
  have htake : s.takeMove.LaneInv := hlane
  cases hcase with
  | starved => exact .of_not_busy (State.raise_not_busy _ _)
  | ran _ ht hw hr hexec =>
    have hread : (s.takeMove.advance s.codeWidth.toNat).LaneInv := hlane
    exact hread.exec_codeWord (h.takeMove.advance (State.engineTurn_iff.mp ht).1 hr) (classify_isCodeWord _ _) hexec
  | started w rest _ hs hw hstart => exact htake.execStart hstart
  | wrote off v => exact htake.regWrite off v
  | loadedIn a b rest hs hb => exact .of_not_busy hb
  | loadedOut a b rest hs hb => exact .of_not_busy hb
  | _ => exact hlane

/-- Settles O26: `EMIT` makes one check before its first byte, and the common tail of a string code makes none before it. -/
theorem stringThatDoesNotFitRaisesOutputOverflow : Obligations.StringThatDoesNotFitRaisesOutputOverflow := by
  refine ⟨fun s str => ?_, fun s i cur h hb hcur hover => ?_⟩
  · exact State.emit_overflow_iff.trans not_le
  · have c := h.command hb
    rw [exec_string c hb hcur]
    exact State.stringTail_overflow (State.resolved_ne_nil c hcur) (not_le.mpr hover)

/-- Settles O29, by what `EMIT`'s loop leaves of `OUT`, of the lanes and of everything else. -/
theorem emitReconstructsEveryByte : Obligations.EmitReconstructsEveryByte := by
  intro s str h hlane hb hfits
  have hf : s.fits str := hfits
  exact ⟨s.emitAll str, State.emit_fits hf, State.emitted h hb hlane hf, hlane.emitAll h hf,
    s.emitAll_lane_length str, s.emitAll_writes str⟩

/-- Settles O30: the byte written is the reconstructed one, and a lane is beyond `SPP`, the byte's own, or another. -/
theorem emitOneByte : Obligations.EmitOneByte := by
  intro s raw l hw hp hs hlanes col v
  have hbyte : (s.emitByte raw).outByte s.outPos.toNat = v :=
    (State.emitByte_outByte hw).trans (State.reconstruct_on hp hs)
  refine ⟨hbyte, ?_⟩
  split
  · next hl => exact State.reconstruct_lane_above hs hl
  · next hl => rw [State.emitByte_lane_getD hw hp hlanes (not_le.mp hl), hbyte]

/-- Settles O31: with the predictor off `EMIT` passes every byte through and commutes with a change of the lanes and of the
row geometry; START's check does not mention `USE_PRED`. -/
theorem predictorOffIsTheIdentity : Obligations.PredictorOffIsTheIdentity := by
  intro s str hoff
  refine ⟨fun hw hfits k hk => ?_, State.emitAll_withLanes hoff str, rfl⟩
  have hf : s.fits str := hfits
  exact State.emitAll_plain hw hf.lt hk (.inl hoff)

/-- Settles O32: column 3 is past the first pixel, and its lane is lane 0. -/
theorem predictorScenarioThree : Obligations.PredictorScenarioThree :=
  (predict_summed (by decide) (by decide)).trans (by decide)

end Sys2Proof.Machine

/-! SUPPORT. What START and the host's loads answer under each condition, that a code word answers in a state that meets
the invariant, and what an engine step leaves of a command that goes on (44_host_command.md R211, R212, R214, R217). -/

namespace Sys2Proof.Machine

/-! ### START and the host's writes -/

/-- START while a command runs is ignored (44_host_command.md R214). -/
theorem execStart_busy {s : State} (w : Word32) (hb : s.busy = true) : execStart w s = .next s := by
  simp only [execStart, hb, if_true]

theorem execStart_refuses {s : State} {w : Word32} (hb : s.busy = false) (hw : w.getLsbD 0 = true)
    (hl : (s.setUsePred w).startLegal = false) : execStart w s = .next (s.setUsePred w).refuseCommand := by
  simp only [execStart, hb, hw, hl, Bool.false_eq_true, if_false, if_true]

/-- An update of `USE_PRED`, the refusal mark and the engine's registers leaves what the host set up. -/
theorem SameLaunch.of_update {s t : State}
    (e : t = { s with
      usePred := t.usePred, refusedMark := t.refusedMark, engState := t.engState, errKind := t.errKind,
      bitPos := t.bitPos, nextCode := t.nextCode, codeWidth := t.codeWidth, prev := t.prev, entry := t.entry,
      outPos := t.outPos, lane := t.lane }) : SameLaunch s t := by
  rw [e]
  exact ⟨rfl, rfl, rfl, rfl, rfl, rfl, rfl, rfl, rfl, rfl, rfl, rfl, rfl⟩

section HostWrites

variable {s : State} {a : Word32} {b : Byte} {rest : List HostMove} (hr : s.refusedMark = false)
include hr

theorem step_loadIn (hs : s.script = .loadIn a b :: rest) : step s =
    if s.busy then .refused .hostMemoryWriteWhileBusy else .next (s.takeMove.putIn a.toNat b) := step_move hr hs

theorem step_loadOut (hs : s.script = .loadOut a b :: rest) : step s =
    if s.busy then .refused .hostMemoryWriteWhileBusy else .next (s.takeMove.putOut a.toNat b) := step_move hr hs

/-- While a command runs no write of a register, START included, has an effect (44_host_command.md R214). -/
theorem step_write_busy {off v : Word32} (hb : s.busy = true) (hs : s.script = .write off v :: rest) :
    step s = .next s.takeMove := by
  by_cases hv : off = 0x00#32 → v.getLsbD 0 = false
  · rw [step_write hr hs hv, State.regWrite_busy (s := s.takeMove) v hb]
  · simp only [Classical.not_imp, Bool.not_eq_false] at hv
    obtain ⟨rfl, hv⟩ := hv
    exact (step_start hr hs hv).trans (execStart_busy v hb)

end HostWrites

/-! ### Code words answer -/

/-- The common tail stops on an empty string only (42_decoder_engine.md R158). -/
theorem State.stringTail_answers {s : State} {cur : Str} (hc : cur ≠ []) : ∃ t, s.stringTail cur = .next t := by
  by_cases hf : s.fits cur
  · cases hr : s.hasPrev with
    | false => exact ⟨_, State.stringTail_first hc hf hr⟩
    | true =>
      by_cases ha : s.canAppend
      · exact ⟨_, State.stringTail_append hc hf hr ha⟩
      · exact ⟨_, State.stringTail_full hc hf hr ha⟩
  · exact ⟨_, State.stringTail_overflow hc hf⟩

/-- A code word of its own class answers in a running command: a string code stands for a string that is not empty. -/
theorem State.CommandInv.exec_codeWord_answers {s : State} {i : Instr} (c : s.CommandInv) (hb : s.busy = true)
    (hi : i.isCodeWord = true) (hwf : i.wfIn s.ctx = true) : ∃ t, exec i s = .next t := by
  have hstring {cur : Str} (hcur : s.resolved i = some cur) : ∃ t, exec i s = .next t := by
    rw [exec_string c hb hcur]
    exact State.stringTail_answers (State.resolved_ne_nil c hcur)
  cases i with
  | lit b => exact hstring rfl
  | clear => exact ⟨_, State.whenEnabled_busy hb⟩
  | eoi => exact ⟨_, State.whenEnabled_busy hb⟩
  | ref k => exact hstring (if_pos hwf)
  | pend k => exact hstring (if_pos hwf)
  | invalid k => exact ⟨_, (State.whenEnabled_busy hb).trans (if_pos hwf)⟩
  | start w => cases hi

/-- On its turn in a state that meets the invariant the engine answers: it lacks bits, or it runs a code word of the class
that the context gives it (42_decoder_engine.md R150). -/
theorem State.Inv.step_answers {s : State} (h : s.Inv) (ht : s.engineTurn = true) : ∃ t, step s = .next t := by
  have hb := (State.engineTurn_iff.mp ht).1
  have c := h.command hb
  by_cases hr : s.codeRemains
  · rw [step_runs ht c.widthLegal hr]
    exact ((h.takeMove.advance hb hr).command hb).exec_codeWord_answers hb (classify_isCodeWord _ _)
      (classify_wfIn c.ctx_legal _).1
  · exact ⟨_, step_starves ht c.widthLegal hr⟩

/-! ### A command goes on or ends -/

theorem State.stringTail_ends_or_runs {s t : State} {cur : Str} (h : s.stringTail cur = .next t) :
    t.busy = true ∨ t.engState = .failed := by
  obtain ⟨-, ⟨-, rfl⟩ | ⟨-, -, -, rfl⟩ | ⟨-, -, -, rfl⟩ | ⟨-, -, rfl⟩⟩ := State.stringTail_cases h
  · exact .inr rfl
  · exact .inr rfl
  · exact .inl rfl
  · exact .inl rfl

/-- No code word leads back to `IDLE` (42_decoder_engine.md R152 to R158). -/
theorem exec_codeWord_ends_or_runs {i : Instr} {s t : State} (hi : i.isCodeWord = true) (he : exec i s = .next t) :
    t.busy = true ∨ t.engState = .done ∨ t.engState = .failed := by
  obtain ⟨-, ⟨-, rfl⟩ | ⟨-, rfl⟩ | ⟨k, -, -, rfl⟩ | ⟨b, -, h⟩ | ⟨k, -, -, h⟩ | ⟨k, -, -, h⟩⟩ := exec_cases hi he
  · exact .inl rfl
  · exact .inr (.inl rfl)
  · exact .inr (.inr rfl)
  · exact (State.stringTail_ends_or_runs h).imp_right .inr
  · exact (State.stringTail_ends_or_runs h).imp_right .inr
  · exact (State.stringTail_ends_or_runs h).imp_right .inr

/-- A running command that meets the invariant and whose host has no move left. -/
structure State.LeftAlone (s : State) : Prop where
  inv : s.Inv
  busy : s.busy = true
  notRefused : s.refusedMark = false
  noMove : s.script = []

/-- How many bits of the stream are left to read (40_bit_reader.md R112). -/
def State.bitsLeft (s : State) : Nat := 8 * s.inLen.toNat - s.bitPos.toNat

theorem State.LeftAlone.engineTurn {s : State} (h : s.LeftAlone) : s.engineTurn = true :=
  State.engineTurn_iff.mpr ⟨h.busy, h.notRefused, .inl h.noMove⟩

theorem State.CommandInv.nine_le_codeWidth {s : State} (c : s.CommandInv) : 9 ≤ s.codeWidth.toNat :=
  (legalWidth_iff.mp c.widthLegal).1

/-- Every engine step ends the command or consumes at least 9 bits of `IN` (44_host_command.md R217). -/
theorem State.LeftAlone.ends_or_consumes {s t : State} (h : s.LeftAlone) (he : step s = .next t) :
    (t.engState = .done ∨ t.engState = .failed) ∨ t.LeftAlone ∧ t.bitsLeft + 9 ≤ s.bitsLeft := by
  have hinv : t.Inv := everyStepKeepsTheInvariant s t h.inv he
  rcases h.inv.engineTurn_cases h.engineTurn he with rfl | ⟨hr, hexec⟩
  · exact .inl (.inr rfl)
  rcases exec_codeWord_ends_or_runs (classify_isCodeWord _ _) hexec with hb | hend
  · right
    obtain ⟨hset, hpos⟩ := codeWordFrame _ _ _ (classify_isCodeWord _ _) hexec
    have c := h.inv.command h.busy
    have hadvance := State.advance_toNat (s := s.takeMove) c.bitPos_le hr
    have hnine := c.nine_le_codeWidth
    refine ⟨⟨hinv, hb, hset.refusedMark.trans h.notRefused, hset.script.trans (congrArg List.tail h.noMove)⟩, ?_⟩
    have hlen : t.inLen = s.inLen := hset.inLen
    simp only [State.codeRemains] at hr
    simp only [State.bitsLeft, hlen, hpos, hadvance, State.takeMove_bitPos]
    omega
  · exact .inl hend

end Sys2Proof.Machine

/-! PROOFS. The statements about the host's command (44_host_command.md): which write is START, what START leaves and when
it is refused, what the host can do before and while a command runs, and that every command ends. -/

namespace Sys2Proof.Machine

/-! ### While a command runs -/

/-- Settles O10, by the two answers of the engine's turn. -/
theorem engineTurnAlwaysAnswers : Obligations.EngineTurnAlwaysAnswers := fun _ h ht => h.step_answers ht

/-- Settles O48, by the cases of a step: a code word keeps all that the host set up, START and a register write are
ignored, a load is no step of a running command, and no other move of the host writes what is said to stay. -/
theorem configurationIsFixedWhileBusy : Obligations.ConfigurationIsFixedWhileBusy := by
  intro s t hb he
  obtain ⟨-, hcase⟩ := step_cases he
  cases hcase with
  | ran _ ht hw hr hexec =>
    obtain ⟨hset, -⟩ := codeWordFrame _ _ _ (classify_isCodeWord _ _) hexec
    exact ⟨hset.usePred, hset.inLen, hset.outCap, hset.rowStride, hset.spp, hset.inMem, hset.lMax, hset.sppMax⟩
  | started w rest _ hs hw hstart =>
    rw [execStart_busy (s := s.takeMove) w hb] at hstart
    cases hstart
    exact ⟨rfl, rfl, rfl, rfl, rfl, rfl, rfl, rfl⟩
  | wrote off v =>
    rw [State.regWrite_busy (s := s.takeMove) v hb]
    exact ⟨rfl, rfl, rfl, rfl, rfl, rfl, rfl, rfl⟩
  | loadedIn a b rest hs hb' => exact absurd (hb'.symm.trans hb) (by decide)
  | _ => exact ⟨rfl, rfl, rfl, rfl, rfl, rfl, rfl, rfl⟩

/-- With fewer than `9 * m` bits left, at most `m` engine steps end the command: each that does not consumes 9 of them. -/
theorem State.LeftAlone.ends_within {m : Nat} {s : State} (h : s.LeftAlone) (hm : s.bitsLeft < 9 * m) :
    ∃ (n : Nat) (t : State), n ≤ m ∧ core.run n s = .next t ∧ (t.engState = .done ∨ t.engState = .failed) := by
  induction m generalizing s with
  | zero => omega
  | succ m ih =>
    obtain ⟨u, hu⟩ := h.inv.step_answers h.engineTurn
    rcases h.ends_or_consumes hu with hend | ⟨hu', hconsumed⟩
    · exact ⟨1, u, by omega, core_run_succ hu 0, hend⟩
    · obtain ⟨n, t, hn, hrun, hend⟩ := ih hu' (by omega)
      exact ⟨n + 1, t, by omega, (core_run_succ hu n).trans hrun, hend⟩

/-- Settles O51: the bits left are fewer than 9 times the bound. -/
theorem everyCommandEnds : Obligations.EveryCommandEnds := by
  intro s h hb hr hs
  refine State.LeftAlone.ends_within ⟨h, hb, hr, hs⟩ ?_
  simp only [State.bitsLeft]
  omega

/-- Settles O13: START and a register write are ignored, and a load meets the check of `BUSY`. -/
theorem hostWritesWhileBusyAreIgnored : Obligations.HostWritesWhileBusyAreIgnored := by
  intro s hb
  refine ⟨fun w => execStart_busy w hb, fun m rest hr hs => ⟨?_, ?_⟩⟩
  · rintro off v rfl
    rw [step_write_busy hr hb hs, State.takeMove_cons hs]
  · rintro a b (rfl | rfl)
    · rw [step_loadIn hr hs, if_pos hb]
    · rw [step_loadOut hr hs, if_pos hb]

/-! ### START -/

/-- Settles O9: the host's move is read as START and taken off its list. -/
theorem stepRunsStart : Obligations.StepRunsStart := by
  intro s w rest hr hs hw
  rw [step_start hr hs hw, State.takeMove_cons hs]

/-- Settles O12: each broken precondition makes the geometry illegal, and the mark bars every later step. -/
theorem startAgainstAPreconditionIsRefused : Obligations.StartAgainstAPreconditionIsRefused := by
  refine ⟨fun s w hb hw hbroken => execStart_refuses hb hw (Bool.eq_false_iff.mpr fun hl => ?_), fun s => step_refused⟩
  obtain ⟨hrow, hspp, hmax, hover⟩ := State.startLegal_iff.mp hl
  simp only [State.setUsePred_rowStride, State.setUsePred_spp, State.setUsePred_sppMax,
    State.setUsePred_overlap] at hrow hspp hmax hover
  rcases hbroken with h | h | h | h
  · omega
  · omega
  · omega
  · simp [h] at hover

/-- Settles O36, by the cases of START: where it begins a command `TBL_RESET` leaves the slots from 258 up, and elsewhere it
writes `USE_PRED` and the mark at most. -/
theorem startFrame : Obligations.StartFrame := by
  intro s t w he
  rcases execStart_cases he with ⟨-, rfl⟩ | ⟨-, -, -, rfl⟩ | ⟨-, -, -, rfl⟩ | ⟨-, -, rfl⟩
  · exact ⟨.of_update rfl, fun _ _ => rfl⟩
  · exact ⟨.of_update rfl, fun k hk => tblEntry_of_reset rfl hk⟩
  · exact ⟨.of_update rfl, fun _ _ => rfl⟩
  · exact ⟨.of_update rfl, fun _ _ => rfl⟩

/-! ### The host's loads -/

/-- Settles O18: a canonical memory reads back the byte written, and the other bytes as before. -/
theorem hostLoadsFillTheMemories : Obligations.HostLoadsFillTheMemories := by
  intro s a b o rest h hr hb
  refine ⟨fun hs => ⟨s.takeMove.putIn a.toNat b, ?_, Memory.read_write_same h.in_wf,
      fun k hk => Memory.read_write_other hk, ?_⟩,
    fun hs => ⟨s.takeMove.putOut a.toNat b, ?_, Memory.read_write_same h.out_wf,
      fun k hk => Memory.read_write_other hk, ?_⟩, fun hs => ?_⟩
  · simp only [step_loadIn hr hs, hb, Bool.false_eq_true, if_false]
  · rw [State.takeMove_cons hs]
    rfl
  · simp only [step_loadOut hr hs, hb, Bool.false_eq_true, if_false]
  · rw [State.takeMove_cons hs]
    rfl
  · rw [step_move hr hs, State.takeMove_cons hs]
    rfl

end Sys2Proof.Machine

/-! PROOFS. The statement about errors (60_exceptions.md): what leaves `FAILED`, and what stays until then. -/

namespace Sys2Proof.Machine

/-- A host write of a register leaves the engine's own registers and the lanes (10_state.md R24). -/
theorem State.regWrite_engineRegisters (s : State) (off v : Word32) :
    (s.regWrite off v).engState = s.engState ∧ (s.regWrite off v).errKind = s.errKind ∧
      (s.regWrite off v).bitPos = s.bitPos ∧ (s.regWrite off v).outPos = s.outPos ∧
      (s.regWrite off v).lane = s.lane := by
  simp only [State.regWrite]
  split_ifs <;> exact ⟨rfl, rfl, rfl, rfl, rfl⟩

theorem State.busy_of_failed {s : State} (h : s.engState = .failed) : s.busy = false := by
  simp [State.busy, h]

/-- Settles O49, by the cases of a step: in `FAILED` the engine has no turn, so a next state is a host move's, and of those
only START writes more than the configuration, the memories and what the host itself holds. -/
theorem onlyStartLeavesFailed : Obligations.OnlyStartLeavesFailed := by
  intro s hf hr
  have hb : s.busy = false := State.busy_of_failed hf
  have hturn : s.engineTurn ≠ true := fun ht => by simp [(State.engineTurn_iff.mp ht).1] at hb
  refine ⟨fun hs => ?_, fun t he => ?_⟩
  · simp only [step_quiet hr hs, State.quietAction, hf, Action.outcome]
  · obtain ⟨-, hcase⟩ := step_cases he
    cases hcase with
    | starved ht => exact absurd ht hturn
    | ran _ ht => exact absurd ht hturn
    | quiet _ hi => simp [hf] at hi
    | started w rest _ hs hw => exact .inl ⟨w, rest, hs, hw⟩
    | wrote off v =>
      obtain ⟨htable, -⟩ := s.takeMove.regWrite_sameTable off v
      obtain ⟨heng, hkind, hbit, hout, hlane⟩ := s.takeMove.regWrite_engineRegisters off v
      exact .inr ⟨heng.trans hf, hkind, hbit, hout, hlane, htable.nextCode, htable.codeWidth, htable.entry, htable.prev⟩
    | drew _ _ _ hb' => simp [hb] at hb'
    | _ => exact .inr ⟨hf, rfl, rfl, rfl, rfl, rfl, rfl, rfl, rfl⟩

end Sys2Proof.Machine
